-- ==== Sys2Proof/Word.lean ====
section
/-! DEFINITION. The word types: bytes, the 32-bit register word, the 4-bit operation code. -/

namespace Sys2Proof

/-- A byte of the streams, of HDR and of the tables (20_memory.md R54). -/
abbrev Byte := BitVec 8

/-- A host register or command word: REG_WIDTH = 32 (00_scope.md R9). -/
abbrev Word := BitVec 32

/-- The OP field of a command, and STATUS.LASTOP (30_encoding.md R75, 10_state.md R36). -/
abbrev OpCode := BitVec 4

/-- The byte offset of a register in the 256-byte host window (20_memory.md R50). -/
abbrev Offset := BitVec 8

/-- A keystream table: "exactly 256 byte values" (10_state.md R40). -/
abbrev Table := Vector Byte 256

end Sys2Proof
end

