-- ==== Sys2Proof/Syntax.lean ====
section
/-! DEFINITION. The command set, the host's bus transactions and the host-program statements, as syntax. -/

namespace Sys2Proof

/-- The commands: one constructor per row of spec/opcode_table.json (30_encoding.md R76). No command has an operand
field; `illegal o` is the OP value 8 + o (R78). The ignored bits [31:4] of a command word are no operand (R75). -/
inductive Instr where
  | nop                        -- OP 0x0, 42_control.md R129
  | run                        -- OP 0x1, 42_control.md R130
  | buildHdr                   -- OP 0x2, 40_header_codec.md R93
  | readHdr                    -- OP 0x3, 40_header_codec.md R95
  | emitHdr                    -- OP 0x4, 40_header_codec.md R99
  | selTable                   -- OP 0x5, 41_keystream.md R113
  | xform                      -- OP 0x6, 41_keystream.md R116
  | clear                      -- OP 0x7, 42_control.md R139
  | illegal (o : BitVec 3)     -- OP 0x8 to 0xF, 42_control.md R140
deriving DecidableEq, Repr

/-- The two kinds of host bus transaction (30_encoding.md R83). -/
inductive BusKind where
  | rd | wr
deriving DecidableEq, Repr

/-- The width a host access asks for. Only 32 bits is answered without a bus error (20_memory.md R52). -/
inductive BusWidth where
  | w8 | w16 | w32
deriving DecidableEq, Repr

/-- A host bus transaction (30_encoding.md R83), with the width that 20_memory.md R52 checks. `data` is what a `wr`
writes; a `rd` does not use it. -/
structure BusTxn where
  kind   : BusKind
  width  : BusWidth
  offset : Offset
  data   : Word
deriving DecidableEq, Repr

/-- The mapped registers of the window (20_memory.md R51); `hdr k` is header word k. -/
inductive Reg where
  | cfg | base | cid | srclen | xlen | cmd | status | pos | idx | hpos
  | hdr (k : BitVec 5)
deriving DecidableEq, Repr

/-- What a port status input says of its port (10_state.md R41). -/
inductive PortStat where
  | unbound      -- no path was given
  | bound        -- open and usable
  | openFailed   -- a path was given but the host could not open it
deriving DecidableEq, Repr

/-- The host's answer to `SrcRead()` (00_scope.md R14). -/
inductive SrcAnswer where
  | byte (b : Byte)
  | eof
deriving DecidableEq, Repr

/-- The host's answer to `SnkWrite(b)` (00_scope.md R14). -/
inductive SnkAnswer where
  | ok
  | fail
deriving DecidableEq, Repr

/-- One thing that happens next outside the engine, or the engine's own turn. A list of these is the interleaving of
20_memory.md R55 and R59 as plain data. DESIGN CHOICE, log 2. -/
inductive HostAct where
  | bus (t : BusTxn)                    -- one register access, 20_memory.md R55
  | ports (src snk : PortStat)          -- the host drives SRC_STAT and SNK_STAT, 10_state.md R41
  | answerSource (r : SrcAnswer)        -- the host gives one more source answer, 42_control.md R125
  | answerSink (r : SnkAnswer)          -- the host gives one more sink answer, 42_control.md R125
  | reset                               -- the reset input, 70_reset_and_hazards.md R170
  | tick                                -- the engine's turn: its one enabled step, 42_control.md R125
  | wait (gap : Nat)                    -- the polling loop of 30_encoding.md R86, `gap + 1` turns between polls
deriving DecidableEq, Repr

/-- A statement of the host-program syntax (30_encoding.md R85, R86). `wait gap` gives the engine `gap + 1` turns
between two polls, a number that the spec leaves to the host's timing (log 12). -/
inductive HostStmt where
  | wr (r : Reg) (imm : Word)
  | rd (r : Reg)
  | cmd (m : Instr)
  | wait (gap : Nat)
  | cfgEncodeImage
  | cfgEncodeResource
  | cfgDecode
deriving DecidableEq, Repr

end Sys2Proof
end

