-- ==== Sys2Proof/Decode.lean ====
section
/-! DEFINITION. Decoding of command words and of bus transactions, total, and the encoders written from the same tables. -/

namespace Sys2Proof

/-- The command a 32-bit word stands for, selected by w[3:0] alone (30_encoding.md R77). Total: OP 0x8 to 0xF is the
illegal row, which keeps the low three bits of OP (R78). -/
def decode (w : Word) : Instr :=
  match (w.extractLsb' 0 4).toNat with
  | 0x0 => .nop
  | 0x1 => .run
  | 0x2 => .buildHdr
  | 0x3 => .readHdr
  | 0x4 => .emitHdr
  | 0x5 => .selTable
  | 0x6 => .xform
  | 0x7 => .clear
  | _   => .illegal (w.extractLsb' 0 3)

/-- The OP value of a command (30_encoding.md R76). -/
def Instr.op (i : Instr) : OpCode :=
  match i with
  | .nop       => 0x0#4
  | .run       => 0x1#4
  | .buildHdr  => 0x2#4
  | .readHdr   => 0x3#4
  | .emitHdr   => 0x4#4
  | .selTable  => 0x5#4
  | .xform     => 0x6#4
  | .clear     => 0x7#4
  | .illegal o => 1#1 ++ o

/-- The command word of a command, with the ignored bits [31:4] zero (30_encoding.md R75). -/
def encode (i : Instr) : Word := 0#28 ++ i.op

/-- The instruction the decoder reads from a table word. A command is one 32-bit word (30_encoding.md R84), so a number
that does not fit in 32 bits is no command. -/
def decodeTableWord (nbits w : Nat) : Option Instr :=
  if nbits ≤ 32 ∧ w < 2 ^ 32 then some (decode (BitVec.ofNat 32 w)) else none

/-- Why an access gets a bus error (20_memory.md R52). -/
inductive BusReject where
  | notWord      -- an access of another width (8 or 16 bits)
  | misaligned   -- an offset that is not a multiple of 4
  | unmapped     -- offsets 0x28 to 0x7C
deriving DecidableEq, Repr

/-- The register at an offset of the window (20_memory.md R51). -/
def Reg.decode (o : Offset) : Except BusReject Reg :=
  if o.extractLsb' 0 2 ≠ 0#2 then .error .misaligned
  else if o.extractLsb' 7 1 = 1#1 then .ok (.hdr (o.extractLsb' 2 5))
  else
    match o.toNat with
    | 0x00 => .ok .cfg
    | 0x04 => .ok .base
    | 0x08 => .ok .cid
    | 0x0C => .ok .srclen
    | 0x10 => .ok .xlen
    | 0x14 => .ok .cmd
    | 0x18 => .ok .status
    | 0x1C => .ok .pos
    | 0x20 => .ok .idx
    | 0x24 => .ok .hpos
    | _    => .error .unmapped

/-- The offset of a register (20_memory.md R51; header word k is at 0x80 + 4k, 10_state.md R39). -/
def Reg.offset (r : Reg) : Offset :=
  match r with
  | .cfg    => 0x00#8
  | .base   => 0x04#8
  | .cid    => 0x08#8
  | .srclen => 0x0C#8
  | .xlen   => 0x10#8
  | .cmd    => 0x14#8
  | .status => 0x18#8
  | .pos    => 0x1C#8
  | .idx    => 0x20#8
  | .hpos   => 0x24#8
  | .hdr k  => 1#1 ++ k ++ 0#2

/-- The register a transaction reaches, or the reason for its bus error (20_memory.md R52). -/
def BusTxn.target (t : BusTxn) : Except BusReject Reg :=
  match t.width with
  | .w8  => .error .notWord
  | .w16 => .error .notWord
  | .w32 => Reg.decode t.offset

/-- A 32-bit write of `w` to a register (30_encoding.md R85, `wr`). -/
def BusTxn.write (r : Reg) (w : Word) : BusTxn := { kind := .wr, width := .w32, offset := r.offset, data := w }

/-- A 32-bit read of a register (30_encoding.md R85, `rd`). -/
def BusTxn.read (r : Reg) : BusTxn := { kind := .rd, width := .w32, offset := r.offset, data := 0#32 }

/-- A command as a bus transaction: the pseudo-statement `<MNEMONIC>` is (wr, 0x14, OP) (30_encoding.md R85). -/
def BusTxn.command (i : Instr) : BusTxn := BusTxn.write .cmd (encode i)

/-- What a host statement expands to (30_encoding.md R85, R86). -/
def HostStmt.expand (h : HostStmt) : HostAct :=
  match h with
  | .wr r imm          => .bus (BusTxn.write r imm)
  | .rd r              => .bus (BusTxn.read r)
  | .cmd m             => .bus (BusTxn.command m)
  | .wait gap          => .wait gap
  | .cfgEncodeImage    => .bus (BusTxn.write .cfg 0x5#32)
  | .cfgEncodeResource => .bus (BusTxn.write .cfg 0x9#32)
  | .cfgDecode         => .bus (BusTxn.write .cfg 0x2#32)

end Sys2Proof
end

