-- ==== Sys2Proof/Config.lean ====
section
/-! DEFINITION. What is fixed for one engine: the spec's constants and its open parameters. -/

namespace Sys2Proof

/-- HDR_SIZE: header size in bytes (00_scope.md R8). -/
def Config.hdrSize : Nat := 128

/-- BASE_CONST: subtracted from an absolute load address (00_scope.md R8). -/
def Config.baseConst : Word := 0x08000000#32

/-- VERSION_VAL: the header's version field (00_scope.md R8). -/
def Config.versionVal : Word := 1#32

/-- BASE_MASK (00_scope.md R9, 40_header_codec.md R92). The spec lets a model take it as a parameter; this model
takes the spec's value. DESIGN CHOICE, log 8. -/
def Config.baseMask : Word := 0xFFF00000#32

/-- KT1, the table for cipher-id 1: an open parameter, so nothing can be proved of its bytes (00_scope.md R10).
Log 6, safe. -/
opaque Config.kt1 : Table

/-- KT2, the table for cipher-id 2: an open parameter, so nothing can be proved of its bytes (00_scope.md R10).
Log 6, safe. -/
opaque Config.kt2 : Table

/-- WINDOW_BASE, the bus address of the register window: an open parameter (20_memory.md R51). Log 7, safe. -/
opaque Config.windowBase : Nat

/-- The bus address of a register of the window. No rule depends on it: transactions carry the offset
(30_encoding.md R83, 93_implementation_defined.md U5). -/
def Config.busAddress (o : Offset) : Nat := Config.windowBase + o.toNat

end Sys2Proof
end

