-- ==== Sys2Proof/Machine/State.lean ====
section
/-! DEFINITION. The engine's state as plain data, the host's side beside it, the reasons a step can stop, and reset. -/

namespace Sys2Proof.Machine

open Sys2Proof

/-- HDR as data: the non-zero bytes of the 128, by index, strictly rising. An unlisted index reads 0x00, its reset
contents (10_state.md R39, R45; log 13). -/
abbrev Memory := List Host.Cell

/-- STATUS.STATE (10_state.md R31). -/
inductive Mode where
  | idle | encoding | decoding | error
deriving DecidableEq, Repr

/-- STATUS.PHASE, the sequencer (10_state.md R33). -/
inductive Phase where
  | none      -- no command is running
  | hdrIn     -- header bytes are read from the source into HDR
  | hdrOut    -- header bytes are written to the sink
  | payload   -- payload bytes are transformed from source to sink
deriving DecidableEq, Repr

/-- STATUS.ERR (60_exceptions.md R146). Codes 11 to 15 are never produced and have no constructor
(93_implementation_defined.md U7). -/
inductive ErrCode where
  | none
  | modeConflict
  | noOperation
  | missingIo
  | invalidMode
  | invalidBase
  | openError
  | truncHeader
  | truncPayload
  | sinkWrite
  | illegalCmd
deriving DecidableEq, Repr

/-- What the host's bus gets back from an access (10_state.md R42, R43; 20_memory.md R52). -/
inductive BusResponse where
  | done              -- a write that was not a bus error, ignored or not
  | data (w : Word)   -- a read's data
  | busError
deriving DecidableEq, Repr

/-- One event of the history: the stream interactions of 00_scope.md R14, and the host's accesses, port changes and
resets between them (20_memory.md R59; log 4). -/
inductive Event where
  | srcRead (r : SrcAnswer)
  | snkWrite (b : Byte) (r : SnkAnswer)
  | srcRelease
  | snkClose
  | access (t : BusTxn) (r : BusResponse)
  | portsDriven (src snk : PortStat)
  | resetTaken
deriving DecidableEq, Repr

/-- Why a step stops. Both name states that no run from reset reaches (log 9); no command's acceptance raises either. -/
inductive Fault where
  /-- Raised by an HDR_IN or HDR_OUT engine step when HPOS is 128 or more: HDR has no such index (00_scope.md R13).
  Safe: the machine stops where the spec gives no effect. -/
  | headerIndexOutOfRange
  /-- Raised by an engine step in PAYLOAD when POS > XLEN: no step of 42_control.md R125 is enabled.
  Safe: the machine stops where the spec gives no effect. -/
  | noEnabledStep
deriving DecidableEq, Repr

/-- Why an instruction has no meaning. Every command has its meaning, so no step answers this. -/
inductive Refusal where
  /-- Raised by `exec` for a row without a meaning, of which there is none. Safe: nothing happens. -/
  | notModelled (mnemonic : String)
deriving DecidableEq, Repr

/-- The engine's state (10_state.md R20), then the host's side of the interface (R21: not engine state; log 1). -/
structure State where
  /-- CFG[3:0]: ENC [0], DEC [1], KIND [3:2]; bits [31:4] are not stored (10_state.md R24). -/
  cfg : BitVec 4
  /-- BASE (10_state.md R25). -/
  base : Word
  /-- CID (10_state.md R26). -/
  cid : Word
  /-- SRCLEN (10_state.md R27). -/
  srclen : Word
  /-- XLEN (10_state.md R28). -/
  xlen : Word
  /-- STATUS.STATE (10_state.md R31). -/
  state : Mode
  /-- STATUS.TSEL (10_state.md R34). -/
  tsel : Bool
  /-- STATUS.HDRV (10_state.md R35). -/
  hdrv : Bool
  /-- STATUS.WSIZE (10_state.md R46). -/
  wsize : Bool
  /-- STATUS.ERR (60_exceptions.md R146). -/
  err : ErrCode
  /-- STATUS.PHASE (10_state.md R33). -/
  phase : Phase
  /-- STATUS.LASTOP (10_state.md R36). -/
  lastop : OpCode
  /-- POS (10_state.md R37). -/
  pos : Word
  /-- HPOS (10_state.md R38). -/
  hpos : BitVec 8
  /-- HDR (10_state.md R39). -/
  hdr : Memory
  /-- KT1, never written (10_state.md R40). -/
  kt1 : Table
  /-- KT2, never written (10_state.md R40). -/
  kt2 : Table
  /-- The SRC_STAT input (10_state.md R41). -/
  srcStat : PortStat
  /-- The SNK_STAT input (10_state.md R41). -/
  snkStat : PortStat
  /-- Source answers given and not yet taken, oldest first (00_scope.md R14; log 3). -/
  srcAnswers : List SrcAnswer
  /-- Sink answers given and not yet taken, oldest first (00_scope.md R14; log 3). -/
  snkAnswers : List SnkAnswer
  /-- What happens next outside the engine, with the engine's turns among it (log 2). -/
  host : List HostAct
  /-- The events so far, oldest first (00_scope.md R14; log 4). -/
  history : List Event
deriving DecidableEq, Repr

/-- The machine right after reset: the values of 10_state.md R45, the tables at their fixed contents, and on the host's
side nothing connected, given, planned or recorded (DESIGN CHOICE, log 1). -/
def State.reset : State where
  cfg := 0x0#4
  base := 0x00000000#32
  cid := 0x00000001#32
  srclen := 0x00000000#32
  xlen := 0x00000000#32
  state := .idle
  tsel := false
  hdrv := false
  wsize := false
  err := .none
  phase := .none
  lastop := 0x0#4
  pos := 0x00000000#32
  hpos := 0x00#8
  hdr := []
  kt1 := Config.kt1
  kt2 := Config.kt2
  srcStat := .unbound
  snkStat := .unbound
  srcAnswers := []
  snkAnswers := []
  host := []
  history := []

end Sys2Proof.Machine
end

