-- ==== Sys2Proof/Machine/Flags.lean ====
section
/-! DEFINITION. The flags: BUSY, the encodings of the STATUS fields, and the STATUS word. -/

namespace Sys2Proof.Machine

open Sys2Proof

/-- STATUS.STATE's encoding (10_state.md R31). -/
def Mode.code (m : Mode) : BitVec 2 :=
  match m with
  | .idle     => 0#2
  | .encoding => 1#2
  | .decoding => 2#2
  | .error    => 3#2

/-- STATUS.PHASE's encoding (10_state.md R33). -/
def Phase.code (p : Phase) : BitVec 2 :=
  match p with
  | .none    => 0#2
  | .hdrIn   => 1#2
  | .hdrOut  => 2#2
  | .payload => 3#2

/-- STATUS.ERR's encoding (60_exceptions.md R146). -/
def ErrCode.code (e : ErrCode) : BitVec 4 :=
  match e with
  | .none         => 0#4
  | .modeConflict => 1#4
  | .noOperation  => 2#4
  | .missingIo    => 3#4
  | .invalidMode  => 4#4
  | .invalidBase  => 5#4
  | .openError    => 6#4
  | .truncHeader  => 7#4
  | .truncPayload => 8#4
  | .sinkWrite    => 9#4
  | .illegalCmd   => 10#4

/-- STATUS.BUSY, "always equal to (PHASE != 0)" (10_state.md R32). -/
def State.busy (s : State) : Bool :=
  match s.phase with
  | .none => false
  | .hdrIn | .hdrOut | .payload => true

/-- The STATUS word, most significant field first: [31:24] 0, LASTOP [23:20], [19:18] 0, PHASE [17:16], [15:12] 0,
ERR [11:8], [7:6] 0, WSIZE [5], HDRV [4], TSEL [3], BUSY [2], STATE [1:0] (10_state.md R30). -/
def State.statusWord (s : State) : Word :=
  0#8 ++ s.lastop ++ 0#2 ++ s.phase.code ++ 0#4 ++ s.err.code ++ 0#2 ++ BitVec.ofBool s.wsize ++
    BitVec.ofBool s.hdrv ++ BitVec.ofBool s.tsel ++ BitVec.ofBool s.busy ++ s.state.code

end Sys2Proof.Machine
end

