-- ==== Sys2Proof/Machine/Ops.lean ====
section
/-! DEFINITION. The named operations every command and engine step is written with: HDR, the streams, the event history,
acceptance of a command, raising an error, leaving the Error state, and reset. -/

namespace Sys2Proof.Machine

open Sys2Proof

/-- What every meaning and step answers. -/
abbrev Result := Host.Outcome State Fault Refusal

/-! ### HDR (00_scope.md R13) -/

/-- One byte of HDR; an unlisted index reads 0x00 (10_state.md R45). -/
def Memory.read (m : Memory) (a : Nat) : Byte :=
  match m with
  | [] => 0x00#8
  | c :: rest => if a = c.1 then c.2 else Memory.read rest a

/-- Store one byte, keeping the canonical form: a byte equal to 0x00 is not listed. -/
def Memory.write (m : Memory) (a : Nat) (v : Byte) : Memory :=
  match m with
  | [] => if v = 0x00#8 then [] else [(a, v)]
  | c :: rest =>
    if a < c.1 then (if v = 0x00#8 then c :: rest else (a, v) :: c :: rest)
    else if a = c.1 then (if v = 0x00#8 then rest else (a, v) :: rest)
    else c :: Memory.write rest a v

/-- From index `lo` on: indices strictly rising, inside 0 to 127, no byte equal to 0x00. -/
def Memory.wfFrom (lo : Nat) (m : Memory) : Bool :=
  match m with
  | [] => true
  | c :: rest => lo ≤ c.1 && c.1 < Config.hdrSize && c.2 != 0x00#8 && Memory.wfFrom (c.1 + 1) rest

/-- The canonical form of HDR. -/
def Memory.wf (m : Memory) : Bool := Memory.wfFrom 0 m

/-- `MemRead(off, n)`: the n-byte little-endian value, sum of HDR[off+k] * 256^k (00_scope.md R13). -/
def Memory.memRead (m : Memory) (off n : Nat) : Nat :=
  match n with
  | 0 => 0
  | k + 1 => Memory.memRead m off k + (m.read (off + k)).toNat * 256 ^ k

/-- `MemWrite(off, n, v)`: HDR[off+k] becomes (v >> 8k) mod 256 for k < n (00_scope.md R13). -/
def Memory.memWrite (m : Memory) (off n v : Nat) : Memory :=
  match n with
  | 0 => m
  | k + 1 => Memory.write (Memory.memWrite m off k v) (off + k) (BitVec.ofNat 8 (v >>> (8 * k)))

/-- A 4-byte header field as a word, `MemRead(off, 4)` (00_scope.md R13, 30_encoding.md R70). -/
def Memory.field (m : Memory) (off : Nat) : Word := BitVec.ofNat 32 (m.memRead off 4)

/-- Store a 4-byte header field, `MemWrite(off, 4, v)` (00_scope.md R13, 30_encoding.md R70). -/
def Memory.putField (m : Memory) (off : Nat) (v : Word) : Memory := m.memWrite off 4 v.toNat

/-- The 128 bytes of HDR in index order, as they go to the sink (40_header_codec.md R100). -/
def Memory.bytes (m : Memory) : List Byte := (List.range Config.hdrSize).map m.read

/-! ### Keystream tables (00_scope.md R17) -/

/-- Entry j of a table. -/
def lookup (t : Table) (j : BitVec 8) : Byte := t[j.toNat]'j.isLt

/-- KT(TSEL + 1), the selected table (10_state.md R34). -/
def State.table (s : State) : Table := if s.tsel then s.kt2 else s.kt1

/-! ### Events and streams (00_scope.md R14) -/

/-- Append events to the history, in order. -/
def State.record (s : State) (es : List Event) : State := { s with history := s.history ++ es }

/-- `SrcRead()`: take the host's next answer. `none` when the host has given none yet, and then the engine holds
(42_control.md R125). -/
def State.srcRead (s : State) : Option (SrcAnswer × State) :=
  match s.srcAnswers with
  | [] => none
  | r :: rest => some (r, State.record { s with srcAnswers := rest } [.srcRead r])

/-- `SnkWrite(b)`: offer b and take the host's next answer. `none` when the host has given none yet, and then the engine
holds (42_control.md R125). -/
def State.snkWrite (s : State) (b : Byte) : Option (SnkAnswer × State) :=
  match s.snkAnswers with
  | [] => none
  | r :: rest => some (r, State.record { s with snkAnswers := rest } [.snkWrite b r])

/-- The bytes the sink has taken: those offered and answered `Ok`, in order (20_memory.md R56, R63). -/
def sinkBytes (es : List Event) : List Byte :=
  es.filterMap fun e => match e with
    | .snkWrite b .ok => some b
    | _ => none

/-- The bytes the engine has consumed from the source, in order (20_memory.md R56, R62). -/
def sourceBytes (es : List Event) : List Byte :=
  es.filterMap fun e => match e with
    | .srcRead (.byte b) => some b
    | _ => none

/-! ### Acceptance (42_control.md R126) -/

/-- Whether a command with this OP is accepted: not while busy (R127), and in Error only NOP and CLEAR (R128). -/
def State.accepts (s : State) (op : OpCode) : Bool :=
  !s.busy && (s.state != .error || op == 0x0#4 || op == 0x7#4)

/-- The acceptance step: an ignored command changes nothing, not even LASTOP; an accepted one sets LASTOP and carries out
its acceptance pseudocode (42_control.md R126). -/
def State.onAccept (s : State) (op : OpCode) (body : State → Result) : Result :=
  if s.accepts op then body { s with lastop := op } else .next s

/-! ### Errors (60_exceptions.md R150) -/

/-- The registers that error entry writes. -/
def State.enterError (s : State) (e : ErrCode) : State := { s with err := e, state := .error, phase := .none }

/-- The release events of a RUN that fails in its acceptance step: one for each port that is Bound. -/
def State.boundReleases (s : State) : List Event :=
  (if s.srcStat = .bound then [.srcRelease] else []) ++ (if s.snkStat = .bound then [.snkClose] else [])

/-- The release events `raise` makes: none unless the failing command is RUN. -/
def State.releases (s : State) (atAcceptance : Bool) : List Event :=
  if s.lastop = 0x1#4 then (if atAcceptance then s.boundReleases else [.srcRelease, .snkClose]) else []

/-- `raise E`: error entry with the code E, and the releases of R150. `atAcceptance` says that this step is the command's
acceptance step. The only way into the Error state. -/
def State.raise (s : State) (atAcceptance : Bool) (e : ErrCode) : State :=
  (s.enterError e).record (s.releases atAcceptance)

/-- Leaving the Error state, CLEAR's writes (60_exceptions.md R155). Nothing is restored. -/
def State.leaveError (s : State) : State := { s with err := .none, state := .idle }

/-! ### Reset (70_reset_and_hazards.md R170) -/

/-- The reset input: every register to its value of 10_state.md R45, the tables unchanged, no stream interaction. The
host's side stays (log 11). -/
def State.resetEngine (s : State) : State :=
  { State.reset with
    kt1 := s.kt1, kt2 := s.kt2, srcStat := s.srcStat, snkStat := s.snkStat, srcAnswers := s.srcAnswers,
    snkAnswers := s.snkAnswers, host := s.host, history := s.history }

end Sys2Proof.Machine
end

