-- ==== Sys2Proof/Machine/Operands.lean ====
section
/-! DEFINITION. The operands of commands (30_encoding.md R79 to R82) and the register window's reads and writes
(10_state.md R42, R43). -/

namespace Sys2Proof.Machine

open Sys2Proof

/-- A header variant (10_state.md R24). -/
inductive Variant where
  | image
  | resource
deriving DecidableEq, Repr

/-- CFG.ENC (10_state.md R24). -/
def State.enc (s : State) : Bool := s.cfg[0]

/-- CFG.DEC (10_state.md R24). -/
def State.dec (s : State) : Bool := s.cfg[1]

/-- CFG.KIND: 0b01 Image, 0b10 Resource, otherwise invalid (30_encoding.md R80). -/
def State.kind (s : State) : Option Variant :=
  match (s.cfg.extractLsb' 2 2).toNat with
  | 1 => some .image
  | 2 => some .resource
  | _ => none

/-- `normBase(b)`: the base offset, or none where the spec says Invalid (40_header_codec.md R92). -/
def normBase (b : Word) : Option Word :=
  if b.toNat < Config.baseConst.toNat then some b
  else if b &&& Config.baseMask = Config.baseConst then some (b - Config.baseConst)
  else none

/-- Whether the header operands of a build are refused, KIND first, BASE only for an Image (40_header_codec.md R93,
60_exceptions.md R152). -/
def State.buildCheck (s : State) : Option ErrCode :=
  match s.kind with
  | none => some .invalidMode
  | some .resource => none
  | some .image => match normBase s.base with
    | none => some .invalidBase
    | some _ => none

/-- The base offset a build writes: BASE normalised for an Image, 0 for a Resource, which does not read BASE
(40_header_codec.md R93). -/
def State.baseOffset (s : State) (v : Variant) : Word :=
  match v with
  | .image => (normBase s.base).getD 0#32
  | .resource => 0#32

/-- TSEL as the cipher-id selects it: 1 only for CID = 2 over all 32 bits (41_keystream.md R113). -/
def State.selectedTable (s : State) : Bool := s.cid = 0x00000002#32

/-- What a host read of a register returns (10_state.md R43). -/
def State.readReg (s : State) (r : Reg) : Word :=
  match r with
  | .cfg    => s.cfg.setWidth 32
  | .base   => s.base
  | .cid    => s.cid
  | .srclen => s.srclen
  | .xlen   => s.xlen
  | .cmd    => 0#32
  | .status => s.statusWord
  | .pos    => s.pos
  | .idx    => (s.pos.extractLsb' 0 8).setWidth 32
  | .hpos   => s.hpos.setWidth 32
  | .hdr k  => s.hdr.field (4 * k.toNat)

/-- What a host write of `w` does to a register that is not CMD: the five configuration registers take it unless the
engine is busy, the others ignore it (10_state.md R42). -/
def State.writeReg (s : State) (r : Reg) (w : Word) : State :=
  match r with
  | .cfg    => if s.busy then s else { s with cfg := w.extractLsb' 0 4 }
  | .base   => if s.busy then s else { s with base := w }
  | .cid    => if s.busy then s else { s with cid := w }
  | .srclen => if s.busy then s else { s with srclen := w }
  | .xlen   => if s.busy then s else { s with xlen := w }
  | .cmd | .status | .pos | .idx | .hpos | .hdr _ => s

end Sys2Proof.Machine
end

