-- ==== Sys2Proof/Machine/HeaderCodec.lean ====
section
/-! DEFINITION. The Container Header Codec: BUILD_HDR, READ_HDR, EMIT_HDR and their phases (40_header_codec.md). -/

namespace Sys2Proof.Machine

open Sys2Proof

/-- `buildHeader(kind, size, off)` (40_header_codec.md R94). -/
def buildHeader (v : Variant) (size off : Word) : Memory :=
  match v with
  | .image =>
    let h1 := Memory.putField [] 0x00 off      -- baseAddressOffset
    let h2 := h1.putField 0x14 size            -- imageSize
    let h3 := h2.putField 0x44 128#32          -- imageHeaderSize
    h3.putField 0x6C Config.versionVal         -- version
  | .resource =>
    let h1 := Memory.putField [] 0x0C size     -- resourceSize
    let h2 := h1.putField 0x3C 128#32          -- resourceHeaderSize
    h2.putField 0x6C Config.versionVal         -- version

/-- The header that the state's operands CFG.KIND, BASE and SRCLEN build; the zero header where KIND is invalid, a case
`buildCheck` stops first (40_header_codec.md R93). -/
def State.builtHeader (s : State) : Memory :=
  match s.kind with
  | some v => buildHeader v s.srclen (s.baseOffset v)
  | none => []

/-- BUILD_HDR (40_header_codec.md R93). -/
def execBuildHdr (s : State) : Result :=
  s.onAccept 0x2#4 fun a =>
    match a.buildCheck with
    | some e => .next (a.raise true e)
    | none => .next { a with hdr := a.builtHeader, hdrv := true }

/-- Header-read start (40_header_codec.md R96). -/
def State.headerReadStart (s : State) : State :=
  { s with hdr := [], hdrv := false, wsize := false, hpos := 0#8, phase := .hdrIn }

/-- The checks of READ_HDR's acceptance, first match wins (40_header_codec.md R95, 60_exceptions.md R152). -/
def State.readHdrCheck (s : State) : Option ErrCode :=
  if s.srcStat = .unbound then some .missingIo
  else if s.srcStat = .openFailed then some .openError
  else if s.srclen.toNat < Config.hdrSize then some .truncHeader
  else none

/-- READ_HDR (40_header_codec.md R95). -/
def execReadHdr (s : State) : Result :=
  s.onAccept 0x3#4 fun a =>
    match a.readHdrCheck with
    | some e => .next (a.raise true e)
    | none => .next a.headerReadStart

/-- The payload size a header declares: imageSize where imageHeaderSize is not 0, else resourceSize
(40_header_codec.md R97). -/
def Memory.declaredSize (m : Memory) : Word :=
  if m.field 0x44 ≠ 0#32 then m.field 0x14 else m.field 0x0C

/-- Header-read completion (40_header_codec.md R97). -/
def State.headerReadComplete (s : State) : State :=
  { s with
    hdrv := true
    wsize := s.hdr.declaredSize != s.srclen - 128#32
    phase := if s.lastop = 0x1#4 then .payload else .none }

/-- The HDR_IN step's store of one byte, and what follows the last (40_header_codec.md R98). -/
def State.headerByteIn (s : State) (b : Byte) : State :=
  let t := { s with hdr := s.hdr.write s.hpos.toNat b, hpos := s.hpos + 1#8 }
  if t.hpos = 128#8 then t.headerReadComplete else t

/-- The HDR_IN engine step (40_header_codec.md R98). -/
def hdrInStep (s : State) : Result :=
  if s.hpos.toNat < Config.hdrSize then
    match s.srcRead with
    | none => .next s
    | some (.eof, a) => .next (a.raise false .truncHeader)
    | some (.byte b, a) => .next (a.headerByteIn b)
  else .fault .headerIndexOutOfRange

/-- The checks of EMIT_HDR's acceptance (40_header_codec.md R99, 60_exceptions.md R152). -/
def State.emitHdrCheck (s : State) : Option ErrCode :=
  if s.snkStat = .unbound then some .missingIo
  else if s.snkStat = .openFailed then some .openError
  else none

/-- EMIT_HDR (40_header_codec.md R99). -/
def execEmitHdr (s : State) : Result :=
  s.onAccept 0x4#4 fun a =>
    match a.emitHdrCheck with
    | some e => .next (a.raise true e)
    | none => .next { a with hpos := 0#8, phase := .hdrOut }

/-- The HDR_OUT step's count of one byte written, and what follows the last (40_header_codec.md R100). -/
def State.headerByteOut (s : State) : State :=
  let t := { s with hpos := s.hpos + 1#8 }
  if t.hpos = 128#8 then
    (if t.lastop = 0x1#4 then { t with pos := 0#32, phase := .payload } else { t with phase := .none })
  else t

/-- The HDR_OUT engine step (40_header_codec.md R100). -/
def hdrOutStep (s : State) : Result :=
  if s.hpos.toNat < Config.hdrSize then
    match s.snkWrite (s.hdr.read s.hpos.toNat) with
    | none => .next s
    | some (.fail, a) => .next (a.raise false .sinkWrite)
    | some (.ok, a) => .next a.headerByteOut
  else .fault .headerIndexOutOfRange

end Sys2Proof.Machine
end

