-- ==== Sys2Proof/Machine/Keystream.lean ====
section
/-! DEFINITION. The Keystream Transform: the keystream, SEL_TABLE, XFORM and the PAYLOAD phase (41_keystream.md). -/

namespace Sys2Proof.Machine

open Sys2Proof

/-- `key(t, i) = KT(t)[i mod 256]` (41_keystream.md R111). -/
def key (t : Table) (i : Nat) : Byte := lookup t (BitVec.ofNat 8 i)

/-- The transform of a byte sequence whose first byte is at payload position i (41_keystream.md R112). -/
def transformFrom (t : Table) (i : Nat) (p : List Byte) : List Byte :=
  match p with
  | [] => []
  | b :: rest => (b ^^^ key t i) :: transformFrom t (i + 1) rest

/-- `transform(P, t)`: X[i] = P[i] XOR key(t, i), from position 0 (41_keystream.md R112, R119). -/
def transform (t : Table) (p : List Byte) : List Byte := transformFrom t 0 p

/-- SEL_TABLE (41_keystream.md R113). -/
def execSelTable (s : State) : Result :=
  s.onAccept 0x5#4 fun a => .next { a with tsel := a.selectedTable }

/-- The checks on both ports, MISSING_IO before OPEN_ERROR (41_keystream.md R116, 60_exceptions.md R152). -/
def State.xformCheck (s : State) : Option ErrCode :=
  if s.srcStat = .unbound ∨ s.snkStat = .unbound then some .missingIo
  else if s.srcStat = .openFailed ∨ s.snkStat = .openFailed then some .openError
  else none

/-- XFORM (41_keystream.md R116). -/
def execXform (s : State) : Result :=
  s.onAccept 0x6#4 fun a =>
    match a.xformCheck with
    | some e => .next (a.raise true e)
    | none => .next { a with pos := 0#32, phase := .payload }

/-- The byte the PAYLOAD step offers for the source byte b (41_keystream.md R117). -/
def State.payloadByte (s : State) (b : Byte) : Byte := b ^^^ lookup s.table (s.pos.extractLsb' 0 8)

/-- The PAYLOAD byte step (41_keystream.md R117). It needs both answers in one indivisible step; where the sink's is not
given yet, nothing has happened (20_memory.md R60, log 3). -/
def payloadByteStep (s : State) : Result :=
  match s.srcRead with
  | none => .next s
  | some (.eof, a) => .next (a.raise false .truncPayload)
  | some (.byte b, a) =>
    match a.snkWrite (s.payloadByte b) with
    | none => .next s
    | some (.fail, c) => .next (c.raise false .sinkWrite)
    | some (.ok, c) => .next { c with pos := c.pos + 1#32 }

/-- Run completion (42_control.md R134). -/
def State.runComplete (s : State) : State :=
  { s.record [.srcRelease, .snkClose] with state := .idle }

/-- The PAYLOAD finish step (41_keystream.md R118). -/
def State.payloadFinish (s : State) : State :=
  { (if s.lastop = 0x1#4 then s.runComplete else s) with phase := .none }

/-- The engine step of the PAYLOAD phase (42_control.md R125). -/
def payloadStep (s : State) : Result :=
  if s.pos.toNat < s.xlen.toNat then payloadByteStep s
  else if s.pos = s.xlen then .next s.payloadFinish
  else .fault .noEnabledStep

end Sys2Proof.Machine
end

