-- ==== Sys2Proof/Machine/Control.lean ====
section
/-! DEFINITION. The control commands NOP, RUN, CLEAR and the illegal OP values, and the engine step (42_control.md). -/

namespace Sys2Proof.Machine

open Sys2Proof

/-- NOP (42_control.md R129). -/
def execNop (s : State) : Result := s.onAccept 0x0#4 fun a => .next a

/-- RUN's checks, first match wins (42_control.md R130, 60_exceptions.md R152). The STATE that R130 sets between two
checks is overwritten by error entry, so the checks do not store it (60_exceptions.md R151; log 16). -/
def State.runCheck (s : State) : Option ErrCode :=
  if s.enc ∧ s.dec then some .modeConflict
  else if ¬ s.enc ∧ ¬ s.dec then some .noOperation
  else if s.srcStat = .unbound ∨ s.snkStat = .unbound then some .missingIo
  else if s.enc ∧ s.kind = none then some .invalidMode
  else if s.enc ∧ s.kind = some .image ∧ normBase s.base = none then some .invalidBase
  else if s.srcStat = .openFailed ∨ s.snkStat = .openFailed then some .openError
  else if s.dec ∧ s.srclen.toNat < Config.hdrSize then some .truncHeader
  else none

/-- RUN setup for an encode (42_control.md R131). -/
def State.runEncodeSetup (s : State) : State :=
  { s with
    state := .encoding, tsel := s.selectedTable, pos := 0#32, hdr := s.builtHeader, hdrv := true, xlen := s.srclen,
    hpos := 0#8, phase := .hdrOut }

/-- RUN setup for a decode (42_control.md R131). -/
def State.runDecodeSetup (s : State) : State :=
  State.headerReadStart
    { s with state := .decoding, tsel := s.selectedTable, pos := 0#32, xlen := s.srclen - 128#32 }

/-- RUN (42_control.md R130, R131). -/
def execRun (s : State) : Result :=
  s.onAccept 0x1#4 fun a =>
    match a.runCheck with
    | some e => .next (a.raise true e)
    | none => .next (if a.enc then a.runEncodeSetup else a.runDecodeSetup)

/-- CLEAR (42_control.md R139). -/
def execClear (s : State) : Result := s.onAccept 0x7#4 fun a => .next a.leaveError

/-- An illegal OP, 8 + o (42_control.md R140). -/
def execIllegal (o : BitVec 3) (s : State) : Result :=
  s.onAccept (1#1 ++ o) fun a => .next (a.raise true .illegalCmd)

/-- The engine's one enabled step; with PHASE = NONE it has none and nothing changes (42_control.md R125). -/
def engineStep (s : State) : Result :=
  match s.phase with
  | .none => .next s
  | .hdrIn => hdrInStep s
  | .hdrOut => hdrOutStep s
  | .payload => payloadStep s

end Sys2Proof.Machine
end

