-- ==== Sys2Proof/Machine/Dispatch.lean ====
section
/-! DEFINITION. One arm per command: the meaning it calls. -/

namespace Sys2Proof.Machine

open Sys2Proof

-- A host write of a command word to CMD (42_control.md R126); each meaning holds the acceptance rule.
def exec (i : Instr) (s : State) : Host.Outcome State Fault Refusal :=
  match i with
  | .nop => Sys2Proof.Machine.execNop s
  | .run => Sys2Proof.Machine.execRun s
  | .buildHdr => Sys2Proof.Machine.execBuildHdr s
  | .readHdr => Sys2Proof.Machine.execReadHdr s
  | .emitHdr => Sys2Proof.Machine.execEmitHdr s
  | .selTable => Sys2Proof.Machine.execSelTable s
  | .xform => Sys2Proof.Machine.execXform s
  | .clear => Sys2Proof.Machine.execClear s
  | .illegal o => Sys2Proof.Machine.execIllegal o s

end Sys2Proof.Machine
end

