-- ==== Sys2Proof/Machine/Bus.lean ====
section
/-! DEFINITION. What the host does to the engine: register accesses, inputs, stream answers and the polling loop. -/

namespace Sys2Proof.Machine

open Sys2Proof

/-- A host write to a mapped register: a write to CMD is a command, any other is `writeReg` (10_state.md R42). -/
def busWrite (r : Reg) (w : Word) (s : State) : Result :=
  match r with
  | .cmd => exec (decode w) s
  | .cfg | .base | .cid | .srclen | .xlen | .status | .pos | .idx | .hpos | .hdr _ => .next (s.writeReg r w)

/-- One host register access. Its event stands in the history before the events of the command it starts (log 4). A bus
error changes no engine state (20_memory.md R52). -/
def busAccess (t : BusTxn) (s : State) : Result :=
  match t.target with
  | .error _ => .next (s.record [.access t .busError])
  | .ok r =>
    match t.kind with
    | .rd => .next (s.record [.access t (.data (s.readReg r))])
    | .wr => busWrite r t.data (s.record [.access t .done])

/-- One poll of `wait`: read STATUS; while BUSY, `gap + 1` engine turns and another poll follow, so that no wait keeps the
engine from its step for ever (30_encoding.md R86, 70_reset_and_hazards.md R183; log 12). -/
def pollStep (gap : Nat) (s : State) : State :=
  let t := s.record [.access (BusTxn.read .status) (.data s.statusWord)]
  if s.busy then { t with host := List.replicate (gap + 1) .tick ++ .wait gap :: t.host } else t

/-- One host action, or the engine's turn (20_memory.md R55, R59). -/
def hostStep (a : HostAct) (s : State) : Result :=
  match a with
  | .bus t => busAccess t s
  | .ports p q => .next (State.record { s with srcStat := p, snkStat := q } [.portsDriven p q])
  | .answerSource r => .next { s with srcAnswers := s.srcAnswers ++ [r] }
  | .answerSink r => .next { s with snkAnswers := s.snkAnswers ++ [r] }
  | .reset => .next (s.resetEngine.record [.resetTaken])
  | .tick => engineStep s
  | .wait gap => .next (pollStep gap s)

/-- The state whose next host action is the 32-bit write of a command word to CMD. -/
def State.withCommandWord (s : State) (w : Word) : State :=
  { s with host := .bus (BusTxn.write .cmd w) :: s.host }

end Sys2Proof.Machine
end

