-- ==== Sys2Proof/Machine/Step.lean ====
section
/-! DEFINITION. The step: the next host action if one is listed, else the engine's own step. -/

namespace Sys2Proof.Machine

open Sys2Proof

/-- One step of the machine. With nothing listed the engine takes its turns by itself (42_control.md R125; log 2). -/
def step (s : State) : Host.Outcome State Fault Refusal :=
  match s.host with
  | [] => engineStep s
  | a :: rest => hostStep a { s with host := rest }

/-- `s` with the command word `w` as the host's next action, a write to CMD, which is where a command comes from
(10_state.md R29; log 5). -/
def State.withFetchWord (s : State) (nbits w : Nat) : State :=
  s.withCommandWord (BitVec.ofNat 32 (w % 2 ^ nbits))

end Sys2Proof.Machine
end

