-- ==== Sys2Proof/Safety.lean ====
section
/-! DEFINITION. What counts as a safe state and a safe run: the invariant of the engine, and running it for k steps. -/

namespace Sys2Proof.Machine

open Sys2Proof

/-- A RUN is under way: STATE is Encoding or Decoding (10_state.md R31). -/
def State.inRun (s : State) : Prop := s.state = .encoding ∨ s.state = .decoding

/-- The engine's invariant: what holds of every state between steps. Each field names the rules it comes from. -/
structure State.Inv (s : State) : Prop where
  /-- HDR is in canonical form, with indices 0 to 127 (10_state.md R39; log 13). -/
  hdrWf : s.hdr.wf = true
  /-- "from 0 to 128" (10_state.md R38). -/
  hposLe : s.hpos.toNat ≤ 128
  /-- A header phase still has a byte to move (40_header_codec.md R98, R100). -/
  hposLt : s.phase = .hdrIn ∨ s.phase = .hdrOut → s.hpos.toNat < 128
  /-- POS never exceeds XLEN while a pass runs (10_state.md R23, R37; log 10). -/
  posLe : s.phase = .payload → s.pos.toNat ≤ s.xlen.toNat
  /-- ERR holds a code exactly in the Error state (60_exceptions.md R150, R155). -/
  errIff : s.state = .error ↔ s.err ≠ .none
  /-- "in STATE = Error the engine is never busy" (42_control.md R139). -/
  errorNotBusy : s.state = .error → s.phase = .none
  /-- STATE is Encoding or Decoding exactly while a RUN is busy (42_control.md R132, R133, R138). -/
  runIff : s.inRun ↔ s.phase ≠ .none ∧ s.lastop = 0x1#4
  /-- Header bytes come in for a decode RUN or a READ_HDR (40_header_codec.md R96). -/
  hdrInOp : s.phase = .hdrIn → s.state = .decoding ∨ (s.state = .idle ∧ s.lastop = 0x3#4)
  /-- Header bytes go out for an encode RUN or an EMIT_HDR (40_header_codec.md R99, R100). -/
  hdrOutOp : s.phase = .hdrOut → s.state = .encoding ∨ (s.state = .idle ∧ s.lastop = 0x4#4)
  /-- A payload pass belongs to a RUN or an XFORM (41_keystream.md R118). -/
  payloadOp : s.phase = .payload → s.inRun ∨ (s.state = .idle ∧ s.lastop = 0x6#4)
  /-- SRCLEN holds at least a header while one is read (40_header_codec.md R95, 42_control.md R130). -/
  hdrInSrclen : s.phase = .hdrIn → 128 ≤ s.srclen.toNat
  /-- While a header is read, HDRV = 0, WSIZE = 0 and HDR is zero from HPOS on (40_header_codec.md R96,
  70_reset_and_hazards.md R181). -/
  hdrInFresh : s.phase = .hdrIn → s.hdrv = false ∧ s.wsize = false ∧ ∀ k, s.hpos.toNat ≤ k → s.hdr.read k = 0#8
  /-- An encode moves SRCLEN payload bytes under a complete built header (42_control.md R131). -/
  encodeSetup : s.state = .encoding → s.xlen = s.srclen ∧ s.hdrv = true
  /-- A decode moves SRCLEN − 128 payload bytes (42_control.md R131). -/
  decodeSetup : s.state = .decoding → 128 ≤ s.srclen.toNat ∧ s.xlen = s.srclen - 128#32
  /-- A decode's payload count stands at 0 while its header is read (42_control.md R131). -/
  decodePos : s.state = .decoding → s.phase = .hdrIn → s.pos = 0#32
  /-- A decode's payload follows a complete header (40_header_codec.md R97). -/
  decodeHdrv : s.state = .decoding → s.phase = .payload → s.hdrv = true

/-- `k` steps from `s`, stopping at a fault or refusal. -/
def runFor (k : Nat) (s : State) : Host.Outcome State Fault Refusal := Host.Core.run Sys2Proof.core k s

/-- The most engine steps the running command can still take (42_control.md R141); 0 when nothing runs. -/
def State.stepsLeft (s : State) : Nat :=
  match s.phase with
  | .none => 0
  | .hdrIn => (128 - s.hpos.toNat) + (if s.lastop = 0x1#4 then s.xlen.toNat + 1 else 0)
  | .hdrOut => (128 - s.hpos.toNat) + (if s.lastop = 0x1#4 then s.xlen.toNat + 1 else 0)
  | .payload => (s.xlen.toNat - s.pos.toNat) + 1

/-! ### The vocabulary of statements about steps and runs -/

/-- The values every register has after reset (10_state.md R45). -/
def State.hasResetValues (s : State) : Prop :=
  s.cfg = 0x0#4 ∧ s.base = 0x00000000#32 ∧ s.cid = 0x00000001#32 ∧ s.srclen = 0x00000000#32 ∧ s.xlen = 0x00000000#32 ∧
    s.state = .idle ∧ s.tsel = false ∧ s.hdrv = false ∧ s.wsize = false ∧ s.err = .none ∧ s.phase = .none ∧
    s.lastop = 0x0#4 ∧ s.statusWord = 0x00000000#32 ∧ s.pos = 0x00000000#32 ∧ s.hpos = 0#8 ∧ ∀ k, s.hdr.read k = 0x00#8

/-- The host's next action is a 32-bit write, at offset o, of the word w. -/
def State.nextWrites (s : State) (o : Offset) (w : Word) : Prop :=
  ∃ x rest, s.host = .bus x :: rest ∧ x.kind = .wr ∧ x.width = .w32 ∧ x.offset = o ∧ x.data = w

/-- The host's next action is a write to CMD that decodes to the command i. -/
def State.nextCommands (s : State) (i : Instr) : Prop := ∃ w, s.nextWrites 0x14#8 w ∧ decode w = i

/-- The next step is the reset input. -/
def State.nextResets (s : State) : Prop := ∃ rest, s.host = .reset :: rest

/-- The next step is the engine's turn. -/
def State.nextIsEngine (s : State) : Prop := s.host = [] ∨ ∃ rest, s.host = .tick :: rest

/-- The source answers the next step adds to those already given. -/
def State.sourceGiven (s : State) : List SrcAnswer :=
  match s.host with
  | .answerSource r :: _ => [r]
  | _ => []

/-- The sink answers the next step adds to those already given. -/
def State.sinkGiven (s : State) : List SnkAnswer :=
  match s.host with
  | .answerSink r :: _ => [r]
  | _ => []

/-- The source answers the engine took, as the history has them. -/
def sourceTaken (es : List Event) : List SrcAnswer :=
  es.filterMap fun e => match e with
    | .srcRead r => some r
    | _ => none

/-- The sink answers the engine took, as the history has them. -/
def sinkTaken (es : List Event) : List SnkAnswer :=
  es.filterMap fun e => match e with
    | .snkWrite _ r => some r
    | _ => none

/-- Whether an event gives a port back to the host (60_exceptions.md R150). -/
def Event.isRelease (e : Event) : Bool :=
  match e with
  | .srcRelease | .snkClose => true
  | .srcRead _ | .snkWrite _ _ | .access _ _ | .portsDriven _ _ | .resetTaken => false

/-- Idle and free, with nothing planned by the host and both ports Bound (70_reset_and_hazards.md R173). -/
structure State.Ready (s : State) : Prop where
  noHost : s.host = []
  free : s.phase = .none
  idle : s.state = .idle
  noError : s.err = .none
  source : s.srcStat = .bound
  sink : s.snkStat = .bound

/-- The host's answers: the source gives the bytes p and then rs, the sink takes n bytes and then answers rk. -/
structure State.Answers (s : State) (p : List Byte) (n : Nat) (rs : List SrcAnswer) (rk : List SnkAnswer) : Prop where
  source : s.srcAnswers = p.map .byte ++ rs
  sink : s.snkAnswers = List.replicate n .ok ++ rk

/-- Ready for a RUN encode of the payload p with the variant v and base offset off (70_reset_and_hazards.md R173). -/
structure State.EncodeReady (s : State) (v : Variant) (off : Word) (p : List Byte) (rs : List SrcAnswer)
    (rk : List SnkAnswer) : Prop where
  ready : s.Ready
  enc : s.cfg[0] = true
  dec : s.cfg[1] = false
  kind : s.cfg.extractLsb' 2 2 = (match v with | .image => 0b01#2 | .resource => 0b10#2)
  offset : match v with | .image => normBase s.base = some off | .resource => off = 0#32
  length : s.srclen.toNat = p.length
  answers : s.Answers p (128 + p.length) rs rk

/-- Ready for a RUN decode of a container c whose payload has n bytes (70_reset_and_hazards.md R173). -/
structure State.DecodeReady (s : State) (c : List Byte) (n : Nat) (rs : List SrcAnswer) (rk : List SnkAnswer) :
    Prop where
  ready : s.Ready
  enc : s.cfg[0] = false
  dec : s.cfg[1] = true
  split : c.length = 128 + n
  length : s.srclen.toNat = c.length
  answers : s.Answers c n rs rk

/-- KT(t) for the cipher-id of the state (41_keystream.md R113). -/
def State.cipherTable (s : State) : Table := if s.cid = 2#32 then s.kt2 else s.kt1

end Sys2Proof.Machine
end

