-- ==== Sys2Proof/WellFormed.lean ====
section
/-! DEFINITION. Which commands, bus transactions and host statements are well formed. -/

namespace Sys2Proof

/-- Every command is well formed: 30_encoding.md R77 gives each of the sixteen OP values a row, and no constructor can
carry a value its row does not have. -/
def Instr.wellFormed (i : Instr) : Bool :=
  match i with
  | .nop | .run | .buildHdr | .readHdr | .emitHdr | .selTable | .xform | .clear => true
  | .illegal _ => true

/-- An access the engine answers without a bus error: 32 bits wide, at a 4-aligned mapped offset (20_memory.md R52). -/
def BusTxn.wellFormed (t : BusTxn) : Bool :=
  t.width = .w32 && t.offset.toNat % 4 = 0 && (t.offset.toNat < 0x28 || 0x80 ≤ t.offset.toNat)

/-- A statement of the host-program syntax: `wr` names a register other than a header word, and a mnemonic is one of the
eight defined commands (30_encoding.md R85). -/
def HostStmt.wellFormed (h : HostStmt) : Bool :=
  match h with
  | .wr r _ => match r with
    | .hdr _ => false
    | .cfg | .base | .cid | .srclen | .xlen | .cmd | .status | .pos | .idx | .hpos => true
  | .cmd m => match m with
    | .illegal _ => false
    | .nop | .run | .buildHdr | .readHdr | .emitHdr | .selTable | .xform | .clear => true
  | .rd _ | .wait _ | .cfgEncodeImage | .cfgEncodeResource | .cfgDecode => true

end Sys2Proof
end

