-- ==== Sys2Proof/Certificates/Slice0/Obligations.lean ====
section
/-! DEFINITION. The statements for the provers. A state that accepts commands is written out as PHASE = NONE and, where the
command is one that Error ignores, STATE ≠ Error (42_control.md R126 to R128). -/

open Sys2Proof Sys2Proof.Machine

/-! ### Reset -/

/-- 10_state.md R45: the reset value of every register, both of `State.reset` and of the reset input from any state, which
leaves the tables unchanged. -/
def Obligations.ResetValues : Prop :=
  State.reset.hasResetValues ∧
    ∀ s : State, s.nextResets → ∃ t, step s = .next t ∧ t.hasResetValues ∧ t.kt1 = s.kt1 ∧ t.kt2 = s.kt2

/-- 70_reset_and_hazards.md R170: the reset input makes no stream interaction. That the history gains one mark, and that
the host's side stays, are the model's choices (log 4, log 11). -/
def Obligations.ResetMakesNoStreamInteraction : Prop :=
  ∀ (s : State) (rest : List HostAct), s.host = .reset :: rest →
    ∃ t, step s = .next t ∧ t.history = s.history ++ [.resetTaken] ∧ sinkBytes t.history = sinkBytes s.history ∧
      t.srcAnswers = s.srcAnswers ∧ t.snkAnswers = s.snkAnswers ∧ t.srcStat = s.srcStat ∧ t.snkStat = s.snkStat ∧
      t.host = rest

/-! ### Encodings -/

/-- 30_encoding.md R76: words written out from the command map. -/
def Obligations.CommandWordsDecode : Prop :=
  decode 0x00000000#32 = .nop ∧ decode 0x00000001#32 = .run ∧ decode 0x00000002#32 = .buildHdr ∧
    decode 0x00000003#32 = .readHdr ∧ decode 0x00000004#32 = .emitHdr ∧ decode 0x00000005#32 = .selTable ∧
    decode 0x00000006#32 = .xform ∧ decode 0x00000007#32 = .clear ∧ decode 0x00000008#32 = .illegal 0b000#3 ∧
    decode 0x0000000F#32 = .illegal 0b111#3 ∧ decode 0xFFFFFFF5#32 = .selTable

/-- 30_encoding.md R77: every word decodes to the row that its OP field alone selects. -/
def Obligations.DecodeReadsOnlyOp : Prop :=
  ∀ w : Word, (decode w).op = w.extractLsb' 0 4 ∧
    ∀ w' : Word, w'.extractLsb' 0 4 = w.extractLsb' 0 4 → decode w' = decode w

/-- Decode and encode agree: on every well-formed command, and on every word but for its ignored bits. -/
def Obligations.DecodeEncodeRoundTrip : Prop :=
  (∀ i : Instr, i.wellFormed = true → decode (encode i) = i) ∧
    ∀ w : Word, encode (decode w) = w &&& 0x0000000F#32

/-- 20_memory.md R51, R52: every register decodes from its own offset, and the transactions that reach a register are
exactly the well-formed ones. -/
def Obligations.RegisterMapRoundTrip : Prop :=
  (∀ r : Reg, Reg.decode r.offset = .ok r) ∧
    (∀ (o : Offset) (r : Reg), Reg.decode o = .ok r → r.offset = o) ∧
    ∀ x : BusTxn, x.wellFormed = true ↔ ∃ r, x.target = .ok r

/-! ### The control commands -/

/-- 42_control.md R129: NOP writes LASTOP and nothing else, in Error too; it is ignored while busy. -/
def Obligations.NopSetsOnlyLastop : Prop :=
  ∀ s : State,
    (s.phase = .none → exec .nop s = .next { s with lastop := 0x0#4 }) ∧
      (s.phase ≠ .none → exec .nop s = .next s)

/-- 42_control.md R139: CLEAR leaves the Error state and changes ERR, STATE and LASTOP only; in Idle it changes LASTOP
only; it is ignored while busy. -/
def Obligations.ClearLeavesErrorState : Prop :=
  ∀ s : State,
    (s.phase = .none → exec .clear s = .next { s with lastop := 0x7#4, err := .none, state := .idle }) ∧
      (s.phase = .none → s.state = .idle → s.err = .none → exec .clear s = .next { s with lastop := 0x7#4 }) ∧
      (s.phase ≠ .none → exec .clear s = .next s)

/-- 42_control.md R140: an illegal OP raises ILLEGAL_CMD and changes nothing else; in Error and while busy it is
ignored. -/
def Obligations.IllegalOpRaises : Prop :=
  ∀ (s : State) (o : BitVec 3),
    (s.phase = .none → s.state = .idle →
        exec (.illegal o) s = .next { s with lastop := 0b1#1 ++ o, err := .illegalCmd, state := .error }) ∧
      (s.state = .error → exec (.illegal o) s = .next s) ∧
      (s.phase ≠ .none → exec (.illegal o) s = .next s)

/-- 42_control.md R130: RUN's checks in order, the first that fails deciding the error, and the release of each Bound port
(60_exceptions.md R150). -/
def Obligations.RunChecksInOrder : Prop :=
  ∀ s : State, s.phase = .none → s.state ≠ .error →
    let enc := s.cfg[0] = true
    let dec := s.cfg[1] = true
    let kind := s.cfg.extractLsb' 2 2
    let unbound := s.srcStat = .unbound ∨ s.snkStat = .unbound
    let openFailed := s.srcStat = .openFailed ∨ s.snkStat = .openFailed
    let badKind := enc ∧ kind ≠ 0b01#2 ∧ kind ≠ 0b10#2
    let badBase := enc ∧ kind = 0b01#2 ∧ normBase s.base = none
    let short := dec ∧ s.srclen.toNat < 128
    let fails := fun e : ErrCode => exec .run s = .next
      { s with
        lastop := 0x1#4, err := e, state := .error
        history := s.history ++ ((if s.srcStat = .bound then [.srcRelease] else []) ++
          (if s.snkStat = .bound then [.snkClose] else [])) }
    (enc ∧ dec → fails .modeConflict) ∧
      (¬ enc ∧ ¬ dec → fails .noOperation) ∧
      ((enc ↔ ¬ dec) →
        (unbound → fails .missingIo) ∧
          (¬ unbound ∧ badKind → fails .invalidMode) ∧
          (¬ unbound ∧ ¬ badKind ∧ badBase → fails .invalidBase) ∧
          (¬ unbound ∧ ¬ badKind ∧ ¬ badBase ∧ openFailed → fails .openError) ∧
          (¬ unbound ∧ ¬ badKind ∧ ¬ badBase ∧ ¬ openFailed ∧ short → fails .truncHeader) ∧
          (¬ unbound ∧ ¬ badKind ∧ ¬ badBase ∧ ¬ openFailed ∧ ¬ short →
            ∃ t, exec .run s = .next t ∧ t.err = s.err ∧ t.history = s.history ∧
              t.state = if s.cfg[0] then .encoding else .decoding))

/-- 42_control.md R131: RUN's setup for an encode (each variant) and for a decode, when every check has passed. -/
def Obligations.RunSetup : Prop :=
  ∀ s : State, s.phase = .none → s.state ≠ .error → s.srcStat = .bound → s.snkStat = .bound →
    (s.cfg[0] = true → s.cfg[1] = false → ∀ (v : Variant) (off : Word),
      s.cfg.extractLsb' 2 2 = (match v with | .image => 0b01#2 | .resource => 0b10#2) →
      (match v with | .image => normBase s.base = some off | .resource => off = 0#32) →
      exec .run s = .next
        { s with
          lastop := 0x1#4, state := .encoding, tsel := s.cid = 0x00000002#32, pos := 0#32
          hdr := buildHeader v s.srclen off, hdrv := true, xlen := s.srclen, hpos := 0#8, phase := .hdrOut }) ∧
    (s.cfg[0] = false → s.cfg[1] = true → 128 ≤ s.srclen.toNat →
      exec .run s = .next
        { s with
          lastop := 0x1#4, state := .decoding, tsel := s.cid = 0x00000002#32, pos := 0#32, xlen := s.srclen - 128#32
          hdr := [], hdrv := false, wsize := false, hpos := 0#8, phase := .hdrIn })

/-! ### The header codec -/

/-- 40_header_codec.md R92: normBase on its three ranges. -/
def Obligations.NormBaseRanges : Prop :=
  ∀ b : Word,
    (b.toNat < 0x08000000 → normBase b = some b) ∧
      (0x08000000 ≤ b.toNat → b.toNat < 0x08100000 →
        ∃ off, normBase b = some off ∧ off.toNat = b.toNat - 0x08000000) ∧
      (0x08100000 ≤ b.toNat → normBase b = none)

/-- 40_header_codec.md R93: BUILD_HDR's checks and its header; on an error HDR and HDRV are unchanged; no port is
touched. -/
def Obligations.BuildHdrResult : Prop :=
  ∀ s : State, s.phase = .none → s.state ≠ .error →
    (s.cfg.extractLsb' 2 2 = 0b00#2 ∨ s.cfg.extractLsb' 2 2 = 0b11#2 →
        exec .buildHdr s = .next { s with lastop := 0x2#4, err := .invalidMode, state := .error }) ∧
      (s.cfg.extractLsb' 2 2 = 0b01#2 → normBase s.base = none →
        exec .buildHdr s = .next { s with lastop := 0x2#4, err := .invalidBase, state := .error }) ∧
      (∀ off, s.cfg.extractLsb' 2 2 = 0b01#2 → normBase s.base = some off →
        exec .buildHdr s = .next
          { s with lastop := 0x2#4, hdr := buildHeader .image s.srclen off, hdrv := true }) ∧
      (s.cfg.extractLsb' 2 2 = 0b10#2 →
        exec .buildHdr s = .next
          { s with lastop := 0x2#4, hdr := buildHeader .resource s.srclen 0#32, hdrv := true })

/-- 40_header_codec.md R91: the 32 words of a built header, by variant. That the header is in canonical form is the model's
choice of how to hold HDR, not R91's (DESIGN CHOICE, log 13). -/
def Obligations.BuiltHeaderFields : Prop :=
  ∀ (size off : Word) (k : Nat), k < 32 →
    (buildHeader .image size off).wf = true ∧ (buildHeader .resource size off).wf = true ∧
      (buildHeader .image size off).field (4 * k) =
        (if k = 0 then off else if k = 5 then size else if k = 17 then 128#32 else if k = 27 then 1#32 else 0#32) ∧
      (buildHeader .resource size off).field (4 * k) =
        (if k = 3 then size else if k = 15 then 128#32 else if k = 27 then 1#32 else 0#32)

/-- 40_header_codec.md R90: in the header that an accepted BUILD_HDR or RUN encode leaves, exactly one of the two header
sizes is not 0, it is 128, and the size field of the same variant carries the payload length, the other 0. -/
def Obligations.WrittenHeaderHasOneVariant : Prop :=
  ∀ (s t : State) (i : Instr), i = .buildHdr ∨ (i = .run ∧ s.cfg[0] = true) → s.phase = .none →
    s.state ≠ .error → exec i s = .next t → t.state ≠ .error →
    (t.hdr.field 0x44 = 128#32 ∧ t.hdr.field 0x3C = 0#32 ∧ t.hdr.field 0x14 = s.srclen ∧ t.hdr.field 0x0C = 0#32) ∨
      (t.hdr.field 0x3C = 128#32 ∧ t.hdr.field 0x44 = 0#32 ∧ t.hdr.field 0x0C = s.srclen ∧ t.hdr.field 0x14 = 0#32)

/-- 20_memory.md R57 (its byte order marked as the spec's own reading): a field of value v at offset o puts (v >> 8k)
mod 256 at byte o + k, leaves every other byte, and reads back as v. -/
def Obligations.HeaderFieldsAreLittleEndian : Prop :=
  ∀ (m : Memory) (o : Nat) (v : Word), m.wf = true → o + 4 ≤ 128 →
    (∀ k, k < 4 → ((m.putField o v).read (o + k)).toNat = (v.toNat >>> (8 * k)) % 256) ∧
      (∀ a, a < o ∨ o + 4 ≤ a → (m.putField o v).read a = m.read a) ∧
      (m.putField o v).field o = v ∧ (m.putField o v).wf = true

/-- 40_header_codec.md R95, R96: READ_HDR's checks in order and the header-read start. -/
def Obligations.ReadHdrAcceptance : Prop :=
  ∀ s : State, s.phase = .none → s.state ≠ .error →
    let fails := fun e : ErrCode => exec .readHdr s = .next { s with lastop := 0x3#4, err := e, state := .error }
    (s.srcStat = .unbound → fails .missingIo) ∧
      (s.srcStat = .openFailed → fails .openError) ∧
      (s.srcStat = .bound → s.srclen.toNat < 128 → fails .truncHeader) ∧
      (s.srcStat = .bound → 128 ≤ s.srclen.toNat →
        exec .readHdr s = .next
          { s with
            lastop := 0x3#4, hdr := [], hdrv := false, wsize := false, hpos := 0#8, phase := .hdrIn })

/-- 40_header_codec.md R97, R98: the HDR_IN step. It holds without an answer, ends with TRUNC_HEADER on Eof, stores a
byte at HPOS and nowhere else, and with byte 127 completes the header. -/
def Obligations.HeaderInStep : Prop :=
  ∀ s : State, s.phase = .hdrIn → s.hpos.toNat < 128 → s.hdr.wf = true →
    (s.srcAnswers = [] → engineStep s = .next s) ∧
      (∀ rest, s.srcAnswers = .eof :: rest →
        engineStep s = .next
          { s with
            srcAnswers := rest, err := .truncHeader, state := .error, phase := .none
            history := s.history ++ .srcRead .eof :: (if s.lastop = 0x1#4 then [.srcRelease, .snkClose] else []) }) ∧
      (∀ b rest, s.srcAnswers = .byte b :: rest →
        ∃ h : Memory, h.wf = true ∧ h.read s.hpos.toNat = b ∧ (∀ a, a ≠ s.hpos.toNat → h.read a = s.hdr.read a) ∧
          (s.hpos.toNat < 127 →
            engineStep s = .next
              { s with
                srcAnswers := rest, hdr := h, hpos := s.hpos + 1#8
                history := s.history ++ [.srcRead (.byte b)] }) ∧
          (s.hpos.toNat = 127 →
            engineStep s = .next
              { s with
                srcAnswers := rest, hdr := h, hpos := 128#8, hdrv := true
                wsize := (if h.field 0x44 ≠ 0#32 then h.field 0x14 else h.field 0x0C) != s.srclen - 128#32
                phase := if s.lastop = 0x1#4 then .payload else .none
                history := s.history ++ [.srcRead (.byte b)] }))

/-- 40_header_codec.md R99: EMIT_HDR's checks and start. It reads neither HDRV nor the source's port. -/
def Obligations.EmitHdrAcceptance : Prop :=
  ∀ s : State, s.phase = .none → s.state ≠ .error →
    (s.snkStat = .unbound →
        exec .emitHdr s = .next { s with lastop := 0x4#4, err := .missingIo, state := .error }) ∧
      (s.snkStat = .openFailed →
        exec .emitHdr s = .next { s with lastop := 0x4#4, err := .openError, state := .error }) ∧
      (s.snkStat = .bound →
        exec .emitHdr s = .next { s with lastop := 0x4#4, hpos := 0#8, phase := .hdrOut })

/-- 40_header_codec.md R100: the HDR_OUT step. It offers HDR[HPOS]; Fail ends it with SINK_WRITE, Ok counts the byte, and
the last byte of a RUN starts the payload pass at POS = 0. -/
def Obligations.HeaderOutStep : Prop :=
  ∀ s : State, s.phase = .hdrOut → s.hpos.toNat < 128 →
    (s.snkAnswers = [] → engineStep s = .next s) ∧
      (∀ rest, s.snkAnswers = .fail :: rest →
        engineStep s = .next
          { s with
            snkAnswers := rest, err := .sinkWrite, state := .error, phase := .none
            history := s.history ++ .snkWrite (s.hdr.read s.hpos.toNat) .fail ::
              (if s.lastop = 0x1#4 then [.srcRelease, .snkClose] else []) }) ∧
      (∀ rest, s.snkAnswers = .ok :: rest →
        let history := s.history ++ [.snkWrite (s.hdr.read s.hpos.toNat) .ok]
        (s.hpos.toNat < 127 →
          engineStep s = .next { s with snkAnswers := rest, hpos := s.hpos + 1#8, history := history }) ∧
        (s.hpos.toNat = 127 → s.lastop = 0x1#4 →
          engineStep s = .next
            { s with snkAnswers := rest, hpos := 128#8, pos := 0#32, phase := .payload, history := history }) ∧
        (s.hpos.toNat = 127 → s.lastop ≠ 0x1#4 →
          engineStep s = .next { s with snkAnswers := rest, hpos := 128#8, phase := .none, history := history }))

/-! ### The keystream -/

/-- 41_keystream.md R113: SEL_TABLE selects KT2 for CID = 2 over all 32 bits and KT1 for every other value; it writes TSEL
and LASTOP only. -/
def Obligations.SelTableComparesWholeCid : Prop :=
  ∀ s : State, s.phase = .none → s.state ≠ .error →
    (s.cid.toNat = 2 → exec .selTable s = .next { s with lastop := 0x5#4, tsel := true }) ∧
      (s.cid.toNat ≠ 2 → exec .selTable s = .next { s with lastop := 0x5#4, tsel := false })

/-- 41_keystream.md R116: XFORM's checks, MISSING_IO first, and its start at POS = 0. -/
def Obligations.XformAcceptance : Prop :=
  ∀ s : State, s.phase = .none → s.state ≠ .error →
    let unbound := s.srcStat = .unbound ∨ s.snkStat = .unbound
    (unbound → exec .xform s = .next { s with lastop := 0x6#4, err := .missingIo, state := .error }) ∧
      (¬ unbound → s.srcStat = .openFailed ∨ s.snkStat = .openFailed →
        exec .xform s = .next { s with lastop := 0x6#4, err := .openError, state := .error }) ∧
      (s.srcStat = .bound → s.snkStat = .bound →
        exec .xform s = .next { s with lastop := 0x6#4, pos := 0#32, phase := .payload })

/-- 41_keystream.md R117: the PAYLOAD byte step. Eof ends it with TRUNC_PAYLOAD and nothing is offered; otherwise b XOR
KT(TSEL + 1)[POS mod 256] is offered; Fail ends it with SINK_WRITE, the byte consumed and POS unchanged; Ok counts it.
Where an answer is not given yet nothing happens; that a source byte already given is not consumed while the sink's answer is
missing is the model's choice (DESIGN CHOICE, log 3, with 42_control.md R125 and 20_memory.md R60). -/
def Obligations.PayloadByteStep : Prop :=
  ∀ s : State, s.phase = .payload → s.pos.toNat < s.xlen.toNat →
    let table := if s.tsel then s.kt2 else s.kt1
    let release : List Event := if s.lastop = 0x1#4 then [.srcRelease, .snkClose] else []
    (s.srcAnswers = [] → engineStep s = .next s) ∧
      (∀ rest, s.srcAnswers = .eof :: rest →
        engineStep s = .next
          { s with
            srcAnswers := rest, err := .truncPayload, state := .error, phase := .none
            history := s.history ++ .srcRead .eof :: release }) ∧
      (∀ b rest, s.srcAnswers = .byte b :: rest →
        let y := b ^^^ table[s.pos.toNat % 256]'(Nat.mod_lt _ (by decide))
        (s.snkAnswers = [] → engineStep s = .next s) ∧
          (∀ rest', s.snkAnswers = .fail :: rest' →
            engineStep s = .next
              { s with
                srcAnswers := rest, snkAnswers := rest', err := .sinkWrite, state := .error, phase := .none
                history := s.history ++ .srcRead (.byte b) :: .snkWrite y .fail :: release }) ∧
          (∀ rest', s.snkAnswers = .ok :: rest' →
            engineStep s = .next
              { s with
                srcAnswers := rest, snkAnswers := rest', pos := s.pos + 1#32
                history := s.history ++ [.srcRead (.byte b), .snkWrite y .ok] }))

/-- 41_keystream.md R118 and 42_control.md R134: the PAYLOAD finish step ends the phase; for a RUN it releases both
ports and returns to Idle. -/
def Obligations.PayloadFinishStep : Prop :=
  ∀ s : State, s.phase = .payload → s.pos = s.xlen →
    (s.lastop = 0x1#4 →
        engineStep s = .next
          { s with phase := .none, state := .idle, history := s.history ++ [.srcRelease, .snkClose] }) ∧
      (s.lastop ≠ 0x1#4 → engineStep s = .next { s with phase := .none })

/-- 41_keystream.md R112: every byte of a transform, and its length. -/
def Obligations.TransformBytes : Prop :=
  ∀ (t : Table) (p : List Byte), (transform t p).length = p.length ∧
    ∀ i, i < p.length →
      (transform t p)[i]? = (p[i]?).map fun b => b ^^^ t[i % 256]'(Nat.mod_lt _ (by decide))

/-- 41_keystream.md R114 (marked derived there): the transform is its own inverse. -/
def Obligations.TransformIsSelfInverse : Prop :=
  ∀ (t : Table) (p : List Byte), transform t (transform t p) = p

/-- 41_keystream.md R115 (marked derived there): the keystream has period 256, and so, whatever the table,
X[i] XOR X[i+256] = P[i] XOR P[i+256]. -/
def Obligations.KeystreamHasPeriod256 : Prop :=
  ∀ (t : Table), (∀ i, key t i = key t (i + 256)) ∧
    ∀ (p : List Byte) (i : Nat) (a b x y : Byte), p[i]? = some a → p[i + 256]? = some b →
      (transform t p)[i]? = some x → (transform t p)[i + 256]? = some y → x ^^^ y = a ^^^ b

/-! ### The bus -/

/-- A step whose next host action is a write to CMD runs the decoded command, with the access recorded first (DESIGN CHOICE,
log 4). That a command placed for the host's probe is such a write is the second clause (log 5). -/
def Obligations.StepRunsDecodedCommand : Prop :=
  (∀ (s : State) (x : BusTxn) (rest : List HostAct), s.host = .bus x :: rest → x.kind = .wr → x.width = .w32 →
    x.offset = 0x14#8 →
    step s = exec (decode x.data) { s with host := rest, history := s.history ++ [.access x .done] }) ∧
    ∀ (s : State) (w : Word),
      step (s.withFetchWord 32 w.toNat) =
        exec (decode w) { s with history := s.history ++ [.access (BusTxn.write .cmd w) .done] }

/-- 42_control.md R127: while busy, a write to CMD or to a configuration register changes nothing of the engine. -/
def Obligations.BusyIgnoresWrites : Prop :=
  ∀ (s : State) (x : BusTxn) (rest : List HostAct), s.phase ≠ .none → s.host = .bus x :: rest → x.kind = .wr →
    x.width = .w32 → x.offset ∈ [0x00#8, 0x04#8, 0x08#8, 0x0C#8, 0x10#8, 0x14#8] →
    step s = .next { s with host := rest, history := s.history ++ [.access x .done] }

/-- 20_memory.md R52: an access of another width, misaligned or unmapped gets a bus error and changes no engine state. -/
def Obligations.BusErrorChangesNothing : Prop :=
  ∀ (s : State) (x : BusTxn) (rest : List HostAct), s.host = .bus x :: rest →
    x.width ≠ .w32 ∨ x.offset.toNat % 4 ≠ 0 ∨ (0x28 ≤ x.offset.toNat ∧ x.offset.toNat < 0x80) →
    step s = .next { s with host := rest, history := s.history ++ [.access x .busError] }

/-- 10_state.md R43: what a 32-bit read returns at each offset, and that it has no other effect. -/
def Obligations.RegisterReads : Prop :=
  ∀ (s : State) (x : BusTxn) (rest : List HostAct), s.host = .bus x :: rest → x.kind = .rd → x.width = .w32 →
    let answers := fun r : BusResponse =>
      step s = .next { s with host := rest, history := s.history ++ [.access x r] }
    (x.offset = 0x00#8 → answers (.data (s.cfg.setWidth 32))) ∧
      (x.offset = 0x04#8 → answers (.data s.base)) ∧
      (x.offset = 0x08#8 → answers (.data s.cid)) ∧
      (x.offset = 0x0C#8 → answers (.data s.srclen)) ∧
      (x.offset = 0x10#8 → answers (.data s.xlen)) ∧
      (x.offset = 0x14#8 → answers (.data 0#32)) ∧
      (x.offset = 0x18#8 → answers (.data s.statusWord)) ∧
      (x.offset = 0x1C#8 → answers (.data s.pos)) ∧
      (x.offset = 0x20#8 → answers (.data (BitVec.ofNat 32 (s.pos.toNat % 256)))) ∧
      (x.offset = 0x24#8 → answers (.data (BitVec.ofNat 32 s.hpos.toNat))) ∧
      (∀ k, k < 32 → x.offset.toNat = 0x80 + 4 * k → answers (.data (BitVec.ofNat 32
        ((s.hdr.read (4 * k)).toNat + (s.hdr.read (4 * k + 1)).toNat * 2 ^ 8 +
          (s.hdr.read (4 * k + 2)).toNat * 2 ^ 16 + (s.hdr.read (4 * k + 3)).toNat * 2 ^ 24)))) ∧
      (x.offset.toNat % 4 ≠ 0 ∨ (0x28 ≤ x.offset.toNat ∧ x.offset.toNat < 0x80) → answers .busError)

/-- 10_state.md R42: what a 32-bit write does at each offset: a configuration register takes it unless busy, CMD starts a
command, a read-only register ignores it, any other offset is a bus error. That the access stands in the history before the
events of the command it starts is the model's choice (DESIGN CHOICE, log 4). -/
def Obligations.RegisterWrites : Prop :=
  ∀ (s : State) (x : BusTxn) (rest : List HostAct), s.host = .bus x :: rest → x.kind = .wr → x.width = .w32 →
    let done : State := { s with host := rest, history := s.history ++ [.access x .done] }
    (s.phase ≠ .none → x.offset ∈ [0x00#8, 0x04#8, 0x08#8, 0x0C#8, 0x10#8] → step s = .next done) ∧
      (s.phase = .none → x.offset = 0x00#8 → step s = .next { done with cfg := x.data.extractLsb' 0 4 }) ∧
      (s.phase = .none → x.offset = 0x04#8 → step s = .next { done with base := x.data }) ∧
      (s.phase = .none → x.offset = 0x08#8 → step s = .next { done with cid := x.data }) ∧
      (s.phase = .none → x.offset = 0x0C#8 → step s = .next { done with srclen := x.data }) ∧
      (s.phase = .none → x.offset = 0x10#8 → step s = .next { done with xlen := x.data }) ∧
      (x.offset = 0x14#8 → step s = exec (decode x.data) done) ∧
      (x.offset ∈ [0x18#8, 0x1C#8, 0x20#8, 0x24#8] → step s = .next done) ∧
      (x.offset.toNat % 4 = 0 → 0x80 ≤ x.offset.toNat → step s = .next done) ∧
      (x.offset.toNat % 4 ≠ 0 ∨ (0x28 ≤ x.offset.toNat ∧ x.offset.toNat < 0x80) →
        step s = .next { s with host := rest, history := s.history ++ [.access x .busError] })

/-- 10_state.md R30 to R34, 60_exceptions.md R146: the fields of the STATUS word, with their codes, and the reserved bits,
which read 0. -/
def Obligations.StatusWordLayout : Prop :=
  ∀ s : State,
    let w := s.statusWord
    w.extractLsb' 0 2 =
        (match s.state with | .idle => 0#2 | .encoding => 1#2 | .decoding => 2#2 | .error => 3#2) ∧
      w.extractLsb' 2 1 = (if s.phase = .none then 0#1 else 1#1) ∧
      w.extractLsb' 3 1 = (if s.tsel then 1#1 else 0#1) ∧
      w.extractLsb' 4 1 = (if s.hdrv then 1#1 else 0#1) ∧
      w.extractLsb' 5 1 = (if s.wsize then 1#1 else 0#1) ∧
      w.extractLsb' 6 2 = 0#2 ∧
      w.extractLsb' 8 4 =
        (match s.err with
          | .none => 0#4 | .modeConflict => 1#4 | .noOperation => 2#4 | .missingIo => 3#4 | .invalidMode => 4#4
          | .invalidBase => 5#4 | .openError => 6#4 | .truncHeader => 7#4 | .truncPayload => 8#4 | .sinkWrite => 9#4
          | .illegalCmd => 10#4) ∧
      w.extractLsb' 12 4 = 0#4 ∧
      w.extractLsb' 16 2 =
        (match s.phase with | .none => 0#2 | .hdrIn => 1#2 | .hdrOut => 2#2 | .payload => 3#2) ∧
      w.extractLsb' 18 2 = 0#2 ∧ w.extractLsb' 20 4 = s.lastop ∧ w.extractLsb' 24 8 = 0#8

/-- 30_encoding.md R85, R86: what each host statement expands to, but for `wait`, which is a loop. -/
def Obligations.HostStatementsExpand : Prop :=
  (∀ (r : Reg) (w : Word),
      (HostStmt.wr r w).expand = .bus { kind := .wr, width := .w32, offset := r.offset, data := w } ∧
        (HostStmt.rd r).expand = .bus { kind := .rd, width := .w32, offset := r.offset, data := 0#32 }) ∧
    (∀ m : Instr, (HostStmt.cmd m).wellFormed = true →
      ∃ w : Word, (HostStmt.cmd m).expand = .bus { kind := .wr, width := .w32, offset := 0x14#8, data := w } ∧
        decode w = m ∧ w.toNat < 8) ∧
    HostStmt.cfgEncodeImage.expand = .bus { kind := .wr, width := .w32, offset := 0x00#8, data := 0x5#32 } ∧
    HostStmt.cfgEncodeResource.expand = .bus { kind := .wr, width := .w32, offset := 0x00#8, data := 0x9#32 } ∧
    HostStmt.cfgDecode.expand = .bus { kind := .wr, width := .w32, offset := 0x00#8, data := 0x2#32 }

/-- 30_encoding.md R86: `wait` reads STATUS and goes on once BUSY = 0. While BUSY = 1 the engine gets turns and
another poll follows; how many turns, at least one, is data of the host, written `gap + 1` (DESIGN CHOICE, log 12). -/
def Obligations.WaitPollsUntilFree : Prop :=
  ∀ (s : State) (gap : Nat) (rest : List HostAct), s.host = .wait gap :: rest →
    let polled := s.history ++ [.access (BusTxn.read .status) (.data s.statusWord)]
    (s.phase = .none → step s = .next { s with host := rest, history := polled }) ∧
      (s.phase ≠ .none →
        step s = .next { s with host := List.replicate (gap + 1) .tick ++ .wait gap :: rest, history := polled })

/-! ### Rules of the whole machine -/

/-- 42_control.md R128: in Error every command but NOP and CLEAR is ignored: nothing changes, not even LASTOP. -/
def Obligations.ErrorStateIgnoresCommands : Prop :=
  ∀ (s : State) (i : Instr), s.state = .error → i ≠ .nop → i ≠ .clear → exec i s = .next s

/-- 42_control.md R125: with PHASE = NONE the engine has no step of its own. -/
def Obligations.FreeEngineHasNoStep : Prop :=
  ∀ s : State, s.phase = .none → engineStep s = .next s

/-- 42_control.md R138: from a state that keeps the invariant, STATE changes only in the ways the table lists. -/
def Obligations.ModeChangesOnlyAsListed : Prop :=
  ∀ s t : State, s.Inv → step s = .next t → t.state ≠ s.state →
    (s.state = .idle ∧ t.state = .encoding ∧ s.nextCommands .run ∧ s.cfg[0] = true ∧ s.cfg[1] = false) ∨
      (s.state = .idle ∧ t.state = .decoding ∧ s.nextCommands .run ∧ s.cfg[0] = false ∧
        s.cfg[1] = true) ∨
      (s.state = .idle ∧ t.state = .error ∧ t.err ≠ .none ∧
        ((s.phase = .none ∧ ∃ i, s.nextCommands i) ∨ (s.phase ≠ .none ∧ s.nextIsEngine))) ∨
      ((s.state = .encoding ∨ s.state = .decoding) ∧ t.state = .error ∧ t.err ≠ .none ∧ s.nextIsEngine) ∨
      ((s.state = .encoding ∨ s.state = .decoding) ∧ t.state = .idle ∧ s.nextIsEngine ∧ s.phase = .payload ∧
        s.pos = s.xlen) ∨
      (s.state = .error ∧ t.state = .idle ∧ s.nextCommands .clear) ∨
      (t.state = .idle ∧ s.nextResets)

/-- 60_exceptions.md R155, R156: only CLEAR and reset leave Error, with ERR = 0 and STATE = Idle; until then ERR keeps the
first code. The premise that the engine is free in Error is part of the invariant. -/
def Obligations.ErrorLeftOnlyByClearOrReset : Prop :=
  ∀ s t : State, s.state = .error → s.phase = .none → step s = .next t →
    (t.state = .error ∧ t.err = s.err ∧ t.phase = .none) ∨
      ((s.nextCommands .clear ∨ s.nextResets) ∧ t.state = .idle ∧ t.err = .none)

/-- 10_state.md R22: the configuration registers are written only by host bus writes, with the value written, and by
reset; RUN writes XLEN. -/
def Obligations.ConfigurationWriters : Prop :=
  ∀ s t : State, step s = .next t → ¬ s.nextResets →
    (t.cfg ≠ s.cfg → ∃ w, s.nextWrites 0x00#8 w ∧ t.cfg = w.extractLsb' 0 4) ∧
      (t.base ≠ s.base → s.nextWrites 0x04#8 t.base) ∧
      (t.cid ≠ s.cid → s.nextWrites 0x08#8 t.cid) ∧
      (t.srclen ≠ s.srclen → s.nextWrites 0x0C#8 t.srclen) ∧
      (t.xlen ≠ s.xlen → s.nextWrites 0x10#8 t.xlen ∨ s.nextCommands .run)

/-- 10_state.md R34 to R39, R46: which steps may write TSEL, LASTOP, HDR, HDRV, WSIZE, HPOS and POS, apart from reset. -/
def Obligations.EngineRegisterWriters : Prop :=
  ∀ s t : State, step s = .next t → ¬ s.nextResets →
    (t.tsel ≠ s.tsel → s.nextCommands .selTable ∨ s.nextCommands .run) ∧
      (t.lastop ≠ s.lastop → ∃ i, s.nextCommands i ∧ t.lastop = i.op) ∧
      (t.hdr ≠ s.hdr ∨ t.hdrv ≠ s.hdrv → s.nextCommands .buildHdr ∨ s.nextCommands .readHdr ∨ s.nextCommands .run ∨
        (s.nextIsEngine ∧ s.phase = .hdrIn)) ∧
      (t.wsize ≠ s.wsize → s.nextCommands .readHdr ∨ s.nextCommands .run ∨ (s.nextIsEngine ∧ s.phase = .hdrIn)) ∧
      (t.hpos ≠ s.hpos → s.nextCommands .readHdr ∨ s.nextCommands .emitHdr ∨ s.nextCommands .run ∨
        (s.nextIsEngine ∧ (s.phase = .hdrIn ∨ s.phase = .hdrOut))) ∧
      (t.pos ≠ s.pos → s.nextCommands .xform ∨ s.nextCommands .run ∨
        (s.nextIsEngine ∧ (s.phase = .hdrOut ∨ s.phase = .payload)))

/-- 10_state.md R40: no step writes a table. -/
def Obligations.TablesNeverChange : Prop :=
  ∀ s t : State, step s = .next t → t.kt1 = s.kt1 ∧ t.kt2 = s.kt2

/-- 20_memory.md R62: a step only adds to the history; it takes the source's and the sink's answers from the front, in
order, each once, at most one of each, and records each with the byte offered. -/
def Obligations.StreamsTakenInOrder : Prop :=
  ∀ s t : State, step s = .next t →
    ∃ es : List Event, t.history = s.history ++ es ∧
      s.srcAnswers ++ s.sourceGiven = sourceTaken es ++ t.srcAnswers ∧
      s.snkAnswers ++ s.sinkGiven = sinkTaken es ++ t.snkAnswers ∧
      (sourceTaken es).length ≤ 1 ∧ (sinkTaken es).length ≤ 1

/-- 20_memory.md R63, R56: a step leaves the sink's bytes standing and appends at most one, and a step that enters Error
appends none. -/
def Obligations.SinkOnlyGrows : Prop :=
  ∀ s t : State, step s = .next t →
    ∃ bs : List Byte, sinkBytes t.history = sinkBytes s.history ++ bs ∧ bs.length ≤ 1 ∧
      (t.state = .error → s.state ≠ .error → bs = [])

/-- 42_control.md R134 and 60_exceptions.md R150: the engine step that ends a RUN, with or without error, releases the source
and then closes the sink, once each and last; no other engine step makes a release event. -/
def Obligations.RunExitReleasesPorts : Prop :=
  ∀ s t : State, s.phase ≠ .none → engineStep s = .next t →
    ∃ es : List Event, es.all (fun e => !e.isRelease) = true ∧
      (s.lastop = 0x1#4 → t.phase = .none → t.history = s.history ++ es ++ [.srcRelease, .snkClose]) ∧
      (s.lastop ≠ 0x1#4 ∨ t.phase ≠ .none → t.history = s.history ++ es)

/-- 10_state.md R41: the port inputs are sampled only at acceptance: an engine step does the same whatever they say. -/
def Obligations.EngineStepIgnoresPorts : Prop :=
  ∀ (s t : State) (p q : PortStat), engineStep s = .next t →
    engineStep { s with srcStat := p, snkStat := q } = .next { t with srcStat := p, snkStat := q }

/-- 40_header_codec.md R102: outside the phase that writes HDR to the sink, two engine steps that differ only in the
header and its flags differ only there afterwards: no header field steers the engine. -/
def Obligations.HeaderDoesNotSteer : Prop :=
  ∀ (s t : State) (h : Memory) (v w : Bool), s.phase ≠ .hdrOut → engineStep s = .next t →
    ∃ (h' : Memory) (v' w' : Bool),
      engineStep { s with hdr := h, hdrv := v, wsize := w } = .next { t with hdr := h', hdrv := v', wsize := w' }

/-- 41_keystream.md R121: apart from the tables, the byte offered to the sink depends on the input byte, POS mod 256 and
TSEL alone. -/
def Obligations.PayloadByteDependsOnlyOnItsPosition : Prop :=
  ∀ (s s' : State) (b : Byte) (rs rs' : List SrcAnswer) (r : SnkAnswer) (rk rk' : List SnkAnswer),
    s.phase = .payload → s'.phase = .payload → s.pos.toNat < s.xlen.toNat → s'.pos.toNat < s'.xlen.toNat →
    s.srcAnswers = .byte b :: rs → s'.srcAnswers = .byte b :: rs' → s.snkAnswers = r :: rk → s'.snkAnswers = r :: rk' →
    s.kt1 = s'.kt1 → s.kt2 = s'.kt2 → s.tsel = s'.tsel → s.pos.toNat % 256 = s'.pos.toNat % 256 →
    ∃ (y : Byte) (t t' : State) (es es' : List Event), engineStep s = .next t ∧ engineStep s' = .next t' ∧
      t.history = s.history ++ .srcRead (.byte b) :: .snkWrite y r :: es ∧
      t'.history = s'.history ++ .srcRead (.byte b) :: .snkWrite y r :: es'

/-! ### The invariant -/

/-- The reset state keeps the engine's invariant. -/
def Obligations.InvariantAtReset : Prop := State.reset.Inv

/-- Every step keeps the engine's invariant: the canonical HDR, HPOS ≤ 128, POS ≤ XLEN in a pass, ERR and STATE
agreeing, the mode, phase and LASTOP combinations of 42_control.md R138. -/
def Obligations.StepKeepsInvariant : Prop :=
  ∀ s t : State, s.Inv → step s = .next t → t.Inv

/-- Under the invariant every step answers a next state: the engine is never stuck in a state without a defined step
(70_reset_and_hazards.md R173, "never undefined behaviour"). -/
def Obligations.StepNeverStops : Prop :=
  ∀ s : State, s.Inv → ∃ t, step s = .next t

/-! ### Whole commands -/

/-- 41_keystream.md R120 (marked derived there), first sentence: an XFORM pass that ends without error has read the next
XLEN source bytes and appended their transform. Its end state is stated whole but for the history. -/
def Obligations.XformWholePass : Prop :=
  ∀ (s : State) (p : List Byte) (rs : List SrcAnswer) (rk : List SnkAnswer), s.Ready → s.xlen.toNat = p.length →
    s.Answers p p.length rs rk →
    ∃ (a : State) (es : List Event), exec .xform s = .next a ∧
      runFor (p.length + 1) a = .next
        { s with
          lastop := 0x6#4, pos := s.xlen, srcAnswers := rs, snkAnswers := rk, history := s.history ++ es } ∧
      sinkBytes es = transform (if s.tsel then s.kt2 else s.kt1) p ∧ sourceBytes es = p ∧
      es.all (fun e => !e.isRelease) = true

/-- 41_keystream.md R120 (marked derived there), second sentence: a pass that stops with TRUNC_PAYLOAD or SINK_WRITE at
POS = m has appended the first m bytes of the transform. -/
def Obligations.XformStoppedPass : Prop :=
  ∀ (s : State) (p : List Byte) (rs : List SrcAnswer) (rk : List SnkAnswer), s.Ready → p.length < s.xlen.toNat →
    (s.Answers p p.length (.eof :: rs) rk →
      ∃ a t : State, exec .xform s = .next a ∧ runFor (p.length + 1) a = .next t ∧ t.state = .error ∧
        t.err = .truncPayload ∧ t.phase = .none ∧ t.pos.toNat = p.length ∧
        sinkBytes t.history = sinkBytes s.history ++ transform (if s.tsel then s.kt2 else s.kt1) p) ∧
    ∀ b : Byte, s.Answers p p.length (.byte b :: rs) (.fail :: rk) →
      ∃ a t : State, exec .xform s = .next a ∧ runFor (p.length + 1) a = .next t ∧ t.state = .error ∧
        t.err = .sinkWrite ∧ t.phase = .none ∧ t.pos.toNat = p.length ∧
        sinkBytes t.history = sinkBytes s.history ++ transform (if s.tsel then s.kt2 else s.kt1) p

/-- 42_control.md R132 (marked derived there): the whole sequence of a RUN encode and its output. -/
def Obligations.RunEncodeWholeSequence : Prop :=
  ∀ (s : State) (v : Variant) (off : Word) (p : List Byte) (rs : List SrcAnswer) (rk : List SnkAnswer),
    s.EncodeReady v off p rs rk →
    ∃ (a : State) (es : List Event), exec .run s = .next a ∧
      (∀ k, k ≤ 128 + p.length → ∃ u, runFor k a = .next u ∧ u.state = .encoding ∧
        u.phase = if k < 128 then .hdrOut else .payload) ∧
      runFor (128 + p.length + 1) a = .next
        { s with
          lastop := 0x1#4, tsel := s.cid = 2#32, hdr := buildHeader v s.srclen off, hdrv := true, xlen := s.srclen
          pos := s.srclen, hpos := 128#8, srcAnswers := rs, snkAnswers := rk
          history := s.history ++ es ++ [.srcRelease, .snkClose] } ∧
      sinkBytes es = (buildHeader v s.srclen off).bytes ++ transform s.cipherTable p ∧
      (sinkBytes es).length = 128 + p.length ∧ es.all (fun e => !e.isRelease) = true

/-- 42_control.md R133 (marked derived there): the whole sequence of a RUN decode and its output. -/
def Obligations.RunDecodeWholeSequence : Prop :=
  ∀ (s : State) (c : List Byte) (n : Nat) (rs : List SrcAnswer) (rk : List SnkAnswer), s.DecodeReady c n rs rk →
    ∃ (a : State) (h : Memory) (w : Bool) (es : List Event), exec .run s = .next a ∧
      (∀ k, k ≤ 128 + n → ∃ u, runFor k a = .next u ∧ u.state = .decoding ∧
        u.phase = if k < 128 then .hdrIn else .payload) ∧
      runFor (128 + n + 1) a = .next
        { s with
          lastop := 0x1#4, tsel := s.cid = 2#32, hdr := h, hdrv := true, wsize := w, xlen := s.srclen - 128#32
          pos := s.srclen - 128#32, hpos := 128#8, srcAnswers := rs, snkAnswers := rk
          history := s.history ++ es ++ [.srcRelease, .snkClose] } ∧
      h.bytes = c.take 128 ∧
      w = ((if h.field 0x44 ≠ 0#32 then h.field 0x14 else h.field 0x0C) != s.srclen - 128#32) ∧
      sinkBytes es = transform s.cipherTable (c.drop 128) ∧ es.all (fun e => !e.isRelease) = true

/-- 42_control.md R135 (marked derived there): decoding, with the same cipher-id and the same tables, what an encode
wrote gives the payload back, with HDR equal to the container's first 128 bytes and WSIZE = 0. -/
def Obligations.RunRoundTrip : Prop :=
  ∀ (s a t : State) (v : Variant) (off : Word) (p c : List Byte) (rs : List SrcAnswer) (rk : List SnkAnswer),
    s.EncodeReady v off p rs rk → exec .run s = .next a → runFor (128 + p.length + 1) a = .next t →
    sinkBytes t.history = sinkBytes s.history ++ c →
    ∀ (s' : State) (rs' : List SrcAnswer) (rk' : List SnkAnswer), s'.DecodeReady c p.length rs' rk' →
      s'.cid = s.cid → s'.kt1 = s.kt1 → s'.kt2 = s.kt2 →
      ∃ a' t' : State, exec .run s' = .next a' ∧ runFor (128 + p.length + 1) a' = .next t' ∧
        sinkBytes t'.history = sinkBytes s'.history ++ p ∧ t'.hdr.bytes = c.take 128 ∧ t'.wsize = false ∧
        t'.state = .idle ∧ t'.err = .none

/-- 42_control.md R136 (marked derived there), first and third sentences: a RUN encode leaves the same sink bytes, HDR,
TSEL, XLEN and POS as SEL_TABLE, BUILD_HDR, EMIT_HDR, the write of XLEN and XFORM, which stay in Idle and release
nothing. -/
def Obligations.RunEncodeAsPrimitives : Prop :=
  ∀ (s : State) (v : Variant) (off : Word) (p : List Byte) (rs : List SrcAnswer) (rk : List SnkAnswer),
    s.EncodeReady v off p rs rk →
    ∃ a t s1 s2 s3 s4 s5 s6 : State, exec .run s = .next a ∧ runFor (128 + p.length + 1) a = .next t ∧
      exec .selTable s = .next s1 ∧ exec .buildHdr s1 = .next s2 ∧ exec .emitHdr s2 = .next s3 ∧
      runFor 128 s3 = .next s4 ∧ exec .xform (s4.writeReg .xlen s4.srclen) = .next s5 ∧
      runFor (p.length + 1) s5 = .next s6 ∧
      sinkBytes s6.history = sinkBytes t.history ∧ s6.hdr = t.hdr ∧ s6.tsel = t.tsel ∧ s6.xlen = t.xlen ∧
      s6.pos = t.pos ∧ (∀ u ∈ [s1, s2, s3, s4, s5, s6], u.state = .idle) ∧
      ∃ es : List Event, s6.history = s.history ++ es ∧ es.all (fun e => !e.isRelease) = true

/-- 42_control.md R136 (marked derived there), second and third sentences: a RUN decode leaves the same sink bytes, HDR,
HDRV, WSIZE, TSEL and POS as SEL_TABLE, READ_HDR, the write of XLEN and XFORM, which stay in Idle and release nothing.
-/
def Obligations.RunDecodeAsPrimitives : Prop :=
  ∀ (s : State) (c : List Byte) (n : Nat) (rs : List SrcAnswer) (rk : List SnkAnswer), s.DecodeReady c n rs rk →
    ∃ a t s1 s2 s3 s4 s5 : State, exec .run s = .next a ∧ runFor (128 + n + 1) a = .next t ∧
      exec .selTable s = .next s1 ∧ exec .readHdr s1 = .next s2 ∧ runFor 128 s2 = .next s3 ∧
      exec .xform (s3.writeReg .xlen (s3.srclen - 128#32)) = .next s4 ∧ runFor (n + 1) s4 = .next s5 ∧
      sinkBytes s5.history = sinkBytes t.history ∧ s5.hdr = t.hdr ∧ s5.hdrv = t.hdrv ∧ s5.wsize = t.wsize ∧
      s5.tsel = t.tsel ∧ s5.pos = t.pos ∧ (∀ u ∈ [s1, s2, s3, s4, s5], u.state = .idle) ∧
      ∃ es : List Event, s5.history = s.history ++ es ∧ es.all (fun e => !e.isRelease) = true

/-- 42_control.md R141 (marked derived there) and 70_reset_and_hazards.md R183: if every request gets an answer, a running
command ends within its bound of engine steps, and a `wait` for it ends too, whatever its gap (log 12). -/
def Obligations.CommandsEndWithinBound : Prop :=
  ∀ s : State, s.Inv → s.stepsLeft ≤ s.srcAnswers.length → s.stepsLeft ≤ s.snkAnswers.length →
    (s.host = [] → s.phase ≠ .none →
      ∃ (k : Nat) (t : State), 0 < k ∧ k ≤ s.stepsLeft ∧ runFor k s = .next t ∧ t.phase = .none) ∧
    ∀ (gap : Nat) (rest : List HostAct), s.host = .wait gap :: rest →
      ∃ (k : Nat) (t : State), k ≤ s.stepsLeft * (gap + 2) + 1 ∧ runFor k s = .next t ∧ t.phase = .none ∧ t.host = rest

/-- 42_control.md R141 (marked derived there): the most steps a command takes after acceptance. -/
def Obligations.CommandStepBounds : Prop :=
  ∀ (i : Instr) (s t : State), s.phase = .none → exec i s = .next t →
    t.stepsLeft ≤
      match i with
      | .readHdr | .emitHdr => 128
      | .xform => t.xlen.toNat + 1
      | .run => 128 + t.xlen.toNat + 1
      | .nop | .buildHdr | .selTable | .clear | .illegal _ => 0
end

