-- ==== Sys2Proof/Laws/Memory.lean ====
section
/-! SUPPORT. The laws of HDR: read after write, the canonical form, little-endian fields, and the built header. -/

namespace Sys2Proof.Machine

open Sys2Proof

@[simp] theorem Memory.read_nil (a : Nat) : Memory.read [] a = 0#8 := rfl

@[simp] theorem Memory.wf_nil : Memory.wf [] = true := rfl

/-- What the canonical form says of a listed entry. -/
theorem Memory.wfFrom_cons (lo : Nat) (c : Host.Cell) (rest : Memory) :
    Memory.wfFrom lo (c :: rest) = true ↔
      lo ≤ c.1 ∧ c.1 < 128 ∧ c.2 ≠ 0#8 ∧ Memory.wfFrom (c.1 + 1) rest = true := by
  rw [Memory.wfFrom, show Config.hdrSize = 128 from rfl]
  simp only [Bool.and_eq_true, decide_eq_true_eq, bne_iff_ne, ne_eq, and_assoc]

/-- Below the first index allowed, a canonical memory lists nothing. -/
theorem Memory.read_below {lo : Nat} {m : Memory} (h : Memory.wfFrom lo m = true) {a : Nat} (ha : a < lo) :
    m.read a = 0#8 := by
  induction m generalizing lo with
  | nil => rfl
  | cons c rest ih =>
    obtain ⟨h1, -, -, h4⟩ := (Memory.wfFrom_cons _ _ _).1 h
    rw [Memory.read, if_neg (by omega)]
    exact ih h4 (by omega)

/-- At 128 and above, a canonical memory lists nothing. -/
theorem Memory.read_above {lo : Nat} {m : Memory} (h : Memory.wfFrom lo m = true) {a : Nat} (ha : 128 ≤ a) :
    m.read a = 0#8 := by
  induction m generalizing lo with
  | nil => rfl
  | cons c rest ih =>
    obtain ⟨-, h2, -, h4⟩ := (Memory.wfFrom_cons _ _ _).1 h
    rw [Memory.read, if_neg (by omega)]
    exact ih h4

theorem Memory.read_write_of_ne (m : Memory) {a b : Nat} (v : Byte) (h : b ≠ a) :
    (m.write a v).read b = m.read b := by
  induction m with
  | nil => by_cases hv : v = 0#8 <;> simp [Memory.write, Memory.read, hv, h]
  | cons c rest ih =>
    simp only [Memory.write]
    split_ifs with h1 h2 h3 h4
    · rfl
    · simp [Memory.read, h]
    · subst h3; simp [Memory.read, h]
    · subst h3; simp [Memory.read, h]
    · simp [Memory.read, ih]

theorem Memory.read_write_same {lo : Nat} {m : Memory} (h : Memory.wfFrom lo m = true) (a : Nat) (v : Byte) :
    (m.write a v).read a = v := by
  induction m generalizing lo with
  | nil => by_cases hv : v = 0#8 <;> simp [Memory.write, Memory.read, hv]
  | cons c rest ih =>
    obtain ⟨-, -, -, h4⟩ := (Memory.wfFrom_cons _ _ _).1 h
    simp only [Memory.write]
    split_ifs with h1 h2 h3 h5
    · rw [Memory.read, if_neg (by omega), h2]; exact Memory.read_below h4 (by omega)
    · simp [Memory.read]
    · rw [h5]; exact Memory.read_below h4 (by omega)
    · simp [Memory.read]
    · rw [Memory.read, if_neg h3]; exact ih h4

/-- Reading any byte after a write. -/
theorem Memory.read_write {m : Memory} (h : m.wf = true) (a b : Nat) (v : Byte) :
    (m.write a v).read b = if b = a then v else m.read b := by
  split_ifs with hb
  · subst hb; exact Memory.read_write_same h b v
  · exact Memory.read_write_of_ne m v hb

theorem Memory.wfFrom_mono {lo lo' : Nat} {m : Memory} (h : Memory.wfFrom lo m = true) (hl : lo' ≤ lo) :
    Memory.wfFrom lo' m = true := by
  cases m with
  | nil => rfl
  | cons c rest =>
    rw [Memory.wfFrom_cons] at h ⊢
    exact ⟨by omega, h.2⟩

theorem Memory.wfFrom_write {lo : Nat} {m : Memory} (h : Memory.wfFrom lo m = true) {a : Nat} (v : Byte)
    (hlo : lo ≤ a) (ha : a < 128) : Memory.wfFrom lo (m.write a v) = true := by
  induction m generalizing lo with
  | nil => by_cases hv : v = 0#8 <;> simp [Memory.write, Memory.wfFrom, Config.hdrSize, hv, hlo, ha]
  | cons c rest ih =>
    simp only [Memory.write]
    obtain ⟨h1, h2, h3, h4⟩ := (Memory.wfFrom_cons _ _ _).1 h
    split_ifs with i1 i2 i3 i4
    · exact h
    · exact (Memory.wfFrom_cons _ _ _).2 ⟨hlo, ha, i2, (Memory.wfFrom_cons _ _ _).2 ⟨i1, h2, h3, h4⟩⟩
    · exact Memory.wfFrom_mono h4 (by omega)
    · exact (Memory.wfFrom_cons _ _ _).2 ⟨hlo, ha, i4, by rw [i3]; exact h4⟩
    · exact (Memory.wfFrom_cons _ _ _).2 ⟨h1, h2, h3, ih h4 (by omega)⟩

/-- A write inside HDR keeps the canonical form. -/
theorem Memory.wf_write {m : Memory} (h : m.wf = true) {a : Nat} (v : Byte) (ha : a < 128) :
    (m.write a v).wf = true :=
  Memory.wfFrom_write h v (Nat.zero_le a) ha

theorem Memory.wf_memWrite {m : Memory} (h : m.wf = true) (off n v : Nat) (hn : off + n ≤ 128) :
    (m.memWrite off n v).wf = true := by
  induction n with
  | zero => exact h
  | succ k ih => exact Memory.wf_write (ih (by omega)) _ (by omega)

/-- Reading any byte after `MemWrite` (00_scope.md R13). -/
theorem Memory.read_memWrite {m : Memory} (h : m.wf = true) (off n v : Nat) (hn : off + n ≤ 128) (b : Nat) :
    (m.memWrite off n v).read b =
      if off ≤ b ∧ b < off + n then BitVec.ofNat 8 (v >>> (8 * (b - off))) else m.read b := by
  induction n with
  | zero => rw [if_neg (by omega)]; rfl
  | succ k ih =>
    rw [Memory.memWrite, Memory.read_write (Memory.wf_memWrite h off k v (by omega)), ih (by omega)]
    by_cases hb : b = off + k
    · subst hb
      rw [if_pos rfl, if_pos (by omega), Nat.add_sub_cancel_left]
    · rw [if_neg hb]
      by_cases hc : off ≤ b ∧ b < off + k
      · rw [if_pos hc, if_pos (by omega)]
      · rw [if_neg hc, if_neg (by omega)]

/-- Two memories that agree on the n bytes have the same n-byte value. -/
theorem Memory.memRead_congr {m m' : Memory} {off n : Nat} (h : ∀ k, k < n → m.read (off + k) = m'.read (off + k)) :
    m.memRead off n = m'.memRead off n := by
  induction n with
  | zero => rfl
  | succ k ih =>
    rw [Memory.memRead, Memory.memRead, ih fun j hj => h j (by omega), h k (by omega)]

theorem Memory.field_congr {m m' : Memory} {off : Nat} (h : ∀ k, k < 4 → m.read (off + k) = m'.read (off + k)) :
    m.field off = m'.field off := by
  rw [Memory.field, Memory.field, Memory.memRead_congr h]

theorem Memory.wf_putField {m : Memory} (h : m.wf = true) (off : Nat) (v : Word) (hn : off + 4 ≤ 128) :
    (m.putField off v).wf = true :=
  Memory.wf_memWrite h off 4 v.toNat hn

/-- A field just stored reads back. -/
theorem Memory.field_putField_same {m : Memory} (h : m.wf = true) (off : Nat) (v : Word) (hn : off + 4 ≤ 128) :
    (m.putField off v).field off = v := by
  have r : ∀ k, k < 4 → (m.putField off v).read (off + k) = BitVec.ofNat 8 (v.toNat >>> (8 * k)) := fun k hk => by
    rw [Memory.putField, Memory.read_memWrite h off 4 v.toNat hn, if_pos (by omega), Nat.add_sub_cancel_left]
  have hv := v.isLt
  apply BitVec.eq_of_toNat_eq
  simp only [Memory.field, Memory.memRead, r 0 (by omega), r 1 (by omega), r 2 (by omega), r 3 (by omega),
    BitVec.toNat_ofNat, Nat.shiftRight_eq_div_pow]
  omega

/-- A field that shares no byte with the one stored is unchanged. -/
theorem Memory.field_putField_of_disjoint {m : Memory} (h : m.wf = true) {off off' : Nat} (v : Word)
    (hn : off + 4 ≤ 128) (hd : off' + 4 ≤ off ∨ off + 4 ≤ off') : (m.putField off v).field off' = m.field off' := by
  apply Memory.field_congr
  intro k hk
  rw [Memory.putField, Memory.read_memWrite h off 4 v.toNat hn, if_neg (by omega)]

theorem Memory.field_nil (off : Nat) : Memory.field [] off = 0#32 := by
  simp [Memory.field, Memory.memRead]

/-- The canonical form determines the memory: equal bytes, equal lists. -/
theorem Memory.eq_of_read_eq {lo : Nat} {m m' : Memory} (h : Memory.wfFrom lo m = true)
    (h' : Memory.wfFrom lo m' = true) (hr : ∀ k, m.read k = m'.read k) : m = m' := by
  induction m generalizing lo m' with
  | nil =>
    cases m' with
    | nil => rfl
    | cons c rest =>
      exact absurd (by simpa [Memory.read] using (hr c.1).symm) ((Memory.wfFrom_cons _ _ _).1 h').2.2.1
  | cons c rest ih =>
    cases m' with
    | nil =>
      exact absurd (by simpa [Memory.read] using hr c.1) ((Memory.wfFrom_cons _ _ _).1 h).2.2.1
    | cons d rest' =>
      obtain ⟨-, -, hc, hrest⟩ := (Memory.wfFrom_cons _ _ _).1 h
      obtain ⟨-, -, hd, hrest'⟩ := (Memory.wfFrom_cons _ _ _).1 h'
      have hkey : c.1 = d.1 := by
        rcases Nat.lt_trichotomy c.1 d.1 with hlt | heq | hgt
        · exfalso
          have := hr c.1
          rw [Memory.read, if_pos rfl, Memory.read, if_neg (by omega), Memory.read_below hrest' (by omega)] at this
          exact hc this
        · exact heq
        · exfalso
          have := hr d.1
          rw [Memory.read, if_neg (by omega), Memory.read_below hrest (by omega), Memory.read, if_pos rfl] at this
          exact hd this.symm
      have hval : c.2 = d.2 := by
        have := hr c.1
        rwa [Memory.read, if_pos rfl, Memory.read, if_pos hkey] at this
      have htail : rest = rest' := by
        refine ih hrest (hkey ▸ hrest') fun k => ?_
        by_cases hk : k = c.1
        · rw [Memory.read_below hrest (by omega), Memory.read_below hrest' (by omega)]
        · have := hr k
          rwa [Memory.read, if_neg hk, Memory.read, if_neg (by omega)] at this
      rw [htail, Prod.ext hkey hval]

/-! ### The built header -/

theorem buildHeader_wf (v : Variant) (size off : Word) : (buildHeader v size off).wf = true := by
  cases v <;> simp only [buildHeader]
  · exact Memory.wf_putField (Memory.wf_putField (Memory.wf_putField (Memory.wf_putField rfl _ _ (by omega)) _ _
      (by omega)) _ _ (by omega)) _ _ (by omega)
  · exact Memory.wf_putField (Memory.wf_putField (Memory.wf_putField rfl _ _ (by omega)) _ _ (by omega)) _ _ (by omega)

/-- The bytes of an Image header, each in terms of the three fields that are stored (40_header_codec.md R94). -/
theorem buildHeader_image_read (size off : Word) (b : Nat) :
    (buildHeader .image size off).read b =
      if 0x6C ≤ b ∧ b < 0x70 then BitVec.ofNat 8 (1 >>> (8 * (b - 0x6C)))
      else if 0x44 ≤ b ∧ b < 0x48 then BitVec.ofNat 8 (128 >>> (8 * (b - 0x44)))
      else if 0x14 ≤ b ∧ b < 0x18 then BitVec.ofNat 8 (size.toNat >>> (8 * (b - 0x14)))
      else if b < 4 then BitVec.ofNat 8 (off.toNat >>> (8 * b))
      else 0#8 := by
  have w1 : Memory.wf (Memory.putField [] 0x00 off) = true := Memory.wf_putField rfl _ _ (by omega)
  have w2 := Memory.wf_putField w1 0x14 size (by omega)
  have w3 := Memory.wf_putField w2 0x44 128#32 (by omega)
  simp only [buildHeader]
  rw [Memory.putField, Memory.read_memWrite w3 _ _ _ (by omega), Memory.putField,
    Memory.read_memWrite w2 _ _ _ (by omega), Memory.putField, Memory.read_memWrite w1 _ _ _ (by omega),
    Memory.putField, Memory.read_memWrite rfl _ _ _ (by omega)]
  simp [Config.versionVal]

/-- The bytes of a Resource header (40_header_codec.md R94). -/
theorem buildHeader_resource_read (size off : Word) (b : Nat) :
    (buildHeader .resource size off).read b =
      if 0x6C ≤ b ∧ b < 0x70 then BitVec.ofNat 8 (1 >>> (8 * (b - 0x6C)))
      else if 0x3C ≤ b ∧ b < 0x40 then BitVec.ofNat 8 (128 >>> (8 * (b - 0x3C)))
      else if 0x0C ≤ b ∧ b < 0x10 then BitVec.ofNat 8 (size.toNat >>> (8 * (b - 0x0C)))
      else 0#8 := by
  have w1 : Memory.wf (Memory.putField [] 0x0C size) = true := Memory.wf_putField rfl _ _ (by omega)
  have w2 := Memory.wf_putField w1 0x3C 128#32 (by omega)
  simp only [buildHeader]
  rw [Memory.putField, Memory.read_memWrite w2 _ _ _ (by omega), Memory.putField,
    Memory.read_memWrite w1 _ _ _ (by omega), Memory.putField, Memory.read_memWrite rfl _ _ _ (by omega)]
  simp [Config.versionVal]

/-- One field of an Image header (40_header_codec.md R91). -/
theorem buildHeader_image_field (size off : Word) {k : Nat} (hk : k < 32) :
    (buildHeader .image size off).field (4 * k) =
      if k = 27 then 1#32 else if k = 17 then 128#32 else if k = 5 then size else if k = 0 then off else 0#32 := by
  have w1 : Memory.wf (Memory.putField [] 0x00 off) = true := Memory.wf_putField rfl _ _ (by omega)
  have w2 := Memory.wf_putField w1 0x14 size (by omega)
  have w3 := Memory.wf_putField w2 0x44 128#32 (by omega)
  simp only [buildHeader]
  split_ifs with h1 h2 h3 h4
  · subst h1; exact Memory.field_putField_same w3 _ _ (by omega)
  · subst h2
    rw [Memory.field_putField_of_disjoint w3 _ (by omega) (by omega)]
    exact Memory.field_putField_same w2 _ _ (by omega)
  · subst h3
    rw [Memory.field_putField_of_disjoint w3 _ (by omega) (by omega),
      Memory.field_putField_of_disjoint w2 _ (by omega) (by omega)]
    exact Memory.field_putField_same w1 _ _ (by omega)
  · subst h4
    rw [Memory.field_putField_of_disjoint w3 _ (by omega) (by omega),
      Memory.field_putField_of_disjoint w2 _ (by omega) (by omega),
      Memory.field_putField_of_disjoint w1 _ (by omega) (by omega)]
    exact Memory.field_putField_same rfl _ _ (by omega)
  · rw [Memory.field_putField_of_disjoint w3 _ (by omega) (by omega),
      Memory.field_putField_of_disjoint w2 _ (by omega) (by omega),
      Memory.field_putField_of_disjoint w1 _ (by omega) (by omega),
      Memory.field_putField_of_disjoint rfl _ (by omega) (by omega), Memory.field_nil]

/-- One field of a Resource header (40_header_codec.md R91). -/
theorem buildHeader_resource_field (size off : Word) {k : Nat} (hk : k < 32) :
    (buildHeader .resource size off).field (4 * k) =
      if k = 27 then 1#32 else if k = 15 then 128#32 else if k = 3 then size else 0#32 := by
  have w1 : Memory.wf (Memory.putField [] 0x0C size) = true := Memory.wf_putField rfl _ _ (by omega)
  have w2 := Memory.wf_putField w1 0x3C 128#32 (by omega)
  simp only [buildHeader]
  split_ifs with h1 h2 h3
  · subst h1; exact Memory.field_putField_same w2 _ _ (by omega)
  · subst h2
    rw [Memory.field_putField_of_disjoint w2 _ (by omega) (by omega)]
    exact Memory.field_putField_same w1 _ _ (by omega)
  · subst h3
    rw [Memory.field_putField_of_disjoint w2 _ (by omega) (by omega),
      Memory.field_putField_of_disjoint w1 _ (by omega) (by omega)]
    exact Memory.field_putField_same rfl _ _ (by omega)
  · rw [Memory.field_putField_of_disjoint w2 _ (by omega) (by omega),
      Memory.field_putField_of_disjoint w1 _ (by omega) (by omega),
      Memory.field_putField_of_disjoint rfl _ (by omega) (by omega), Memory.field_nil]

end Sys2Proof.Machine
end

