-- ==== Sys2Proof/Laws/State.lean ====
section
/-! SUPPORT. One lemma per field of State for each named update of the whole state. -/

namespace Sys2Proof.Machine

open Sys2Proof

/-! ### Recording events -/

@[simp] theorem State.record_cfg (s : State) (es : List Event) : (s.record es).cfg = s.cfg := rfl
@[simp] theorem State.record_base (s : State) (es : List Event) : (s.record es).base = s.base := rfl
@[simp] theorem State.record_cid (s : State) (es : List Event) : (s.record es).cid = s.cid := rfl
@[simp] theorem State.record_srclen (s : State) (es : List Event) : (s.record es).srclen = s.srclen := rfl
@[simp] theorem State.record_xlen (s : State) (es : List Event) : (s.record es).xlen = s.xlen := rfl
@[simp] theorem State.record_state (s : State) (es : List Event) : (s.record es).state = s.state := rfl
@[simp] theorem State.record_tsel (s : State) (es : List Event) : (s.record es).tsel = s.tsel := rfl
@[simp] theorem State.record_hdrv (s : State) (es : List Event) : (s.record es).hdrv = s.hdrv := rfl
@[simp] theorem State.record_wsize (s : State) (es : List Event) : (s.record es).wsize = s.wsize := rfl
@[simp] theorem State.record_err (s : State) (es : List Event) : (s.record es).err = s.err := rfl
@[simp] theorem State.record_phase (s : State) (es : List Event) : (s.record es).phase = s.phase := rfl
@[simp] theorem State.record_lastop (s : State) (es : List Event) : (s.record es).lastop = s.lastop := rfl
@[simp] theorem State.record_pos (s : State) (es : List Event) : (s.record es).pos = s.pos := rfl
@[simp] theorem State.record_hpos (s : State) (es : List Event) : (s.record es).hpos = s.hpos := rfl
@[simp] theorem State.record_hdr (s : State) (es : List Event) : (s.record es).hdr = s.hdr := rfl
@[simp] theorem State.record_kt1 (s : State) (es : List Event) : (s.record es).kt1 = s.kt1 := rfl
@[simp] theorem State.record_kt2 (s : State) (es : List Event) : (s.record es).kt2 = s.kt2 := rfl
@[simp] theorem State.record_srcStat (s : State) (es : List Event) : (s.record es).srcStat = s.srcStat := rfl
@[simp] theorem State.record_snkStat (s : State) (es : List Event) : (s.record es).snkStat = s.snkStat := rfl
@[simp] theorem State.record_srcAnswers (s : State) (es : List Event) : (s.record es).srcAnswers = s.srcAnswers := rfl
@[simp] theorem State.record_snkAnswers (s : State) (es : List Event) : (s.record es).snkAnswers = s.snkAnswers := rfl
@[simp] theorem State.record_host (s : State) (es : List Event) : (s.record es).host = s.host := rfl
@[simp] theorem State.record_history (s : State) (es : List Event) : (s.record es).history = s.history ++ es := rfl

/-! ### Error entry -/

@[simp] theorem State.enterError_cfg (s : State) (e : ErrCode) : (s.enterError e).cfg = s.cfg := rfl
@[simp] theorem State.enterError_base (s : State) (e : ErrCode) : (s.enterError e).base = s.base := rfl
@[simp] theorem State.enterError_cid (s : State) (e : ErrCode) : (s.enterError e).cid = s.cid := rfl
@[simp] theorem State.enterError_srclen (s : State) (e : ErrCode) : (s.enterError e).srclen = s.srclen := rfl
@[simp] theorem State.enterError_xlen (s : State) (e : ErrCode) : (s.enterError e).xlen = s.xlen := rfl
@[simp] theorem State.enterError_state (s : State) (e : ErrCode) : (s.enterError e).state = .error := rfl
@[simp] theorem State.enterError_tsel (s : State) (e : ErrCode) : (s.enterError e).tsel = s.tsel := rfl
@[simp] theorem State.enterError_hdrv (s : State) (e : ErrCode) : (s.enterError e).hdrv = s.hdrv := rfl
@[simp] theorem State.enterError_wsize (s : State) (e : ErrCode) : (s.enterError e).wsize = s.wsize := rfl
@[simp] theorem State.enterError_err (s : State) (e : ErrCode) : (s.enterError e).err = e := rfl
@[simp] theorem State.enterError_phase (s : State) (e : ErrCode) : (s.enterError e).phase = .none := rfl
@[simp] theorem State.enterError_lastop (s : State) (e : ErrCode) : (s.enterError e).lastop = s.lastop := rfl
@[simp] theorem State.enterError_pos (s : State) (e : ErrCode) : (s.enterError e).pos = s.pos := rfl
@[simp] theorem State.enterError_hpos (s : State) (e : ErrCode) : (s.enterError e).hpos = s.hpos := rfl
@[simp] theorem State.enterError_hdr (s : State) (e : ErrCode) : (s.enterError e).hdr = s.hdr := rfl
@[simp] theorem State.enterError_kt1 (s : State) (e : ErrCode) : (s.enterError e).kt1 = s.kt1 := rfl
@[simp] theorem State.enterError_kt2 (s : State) (e : ErrCode) : (s.enterError e).kt2 = s.kt2 := rfl
@[simp] theorem State.enterError_srcStat (s : State) (e : ErrCode) : (s.enterError e).srcStat = s.srcStat := rfl
@[simp] theorem State.enterError_snkStat (s : State) (e : ErrCode) : (s.enterError e).snkStat = s.snkStat := rfl
@[simp] theorem State.enterError_srcAnswers (s : State) (e : ErrCode) : (s.enterError e).srcAnswers = s.srcAnswers := rfl
@[simp] theorem State.enterError_snkAnswers (s : State) (e : ErrCode) : (s.enterError e).snkAnswers = s.snkAnswers := rfl
@[simp] theorem State.enterError_host (s : State) (e : ErrCode) : (s.enterError e).host = s.host := rfl
@[simp] theorem State.enterError_history (s : State) (e : ErrCode) : (s.enterError e).history = s.history := rfl

/-! ### Raising an error -/

@[simp] theorem State.raise_cfg (s : State) (b : Bool) (e : ErrCode) : (s.raise b e).cfg = s.cfg := rfl
@[simp] theorem State.raise_base (s : State) (b : Bool) (e : ErrCode) : (s.raise b e).base = s.base := rfl
@[simp] theorem State.raise_cid (s : State) (b : Bool) (e : ErrCode) : (s.raise b e).cid = s.cid := rfl
@[simp] theorem State.raise_srclen (s : State) (b : Bool) (e : ErrCode) : (s.raise b e).srclen = s.srclen := rfl
@[simp] theorem State.raise_xlen (s : State) (b : Bool) (e : ErrCode) : (s.raise b e).xlen = s.xlen := rfl
@[simp] theorem State.raise_state (s : State) (b : Bool) (e : ErrCode) : (s.raise b e).state = .error := rfl
@[simp] theorem State.raise_tsel (s : State) (b : Bool) (e : ErrCode) : (s.raise b e).tsel = s.tsel := rfl
@[simp] theorem State.raise_hdrv (s : State) (b : Bool) (e : ErrCode) : (s.raise b e).hdrv = s.hdrv := rfl
@[simp] theorem State.raise_wsize (s : State) (b : Bool) (e : ErrCode) : (s.raise b e).wsize = s.wsize := rfl
@[simp] theorem State.raise_err (s : State) (b : Bool) (e : ErrCode) : (s.raise b e).err = e := rfl
@[simp] theorem State.raise_phase (s : State) (b : Bool) (e : ErrCode) : (s.raise b e).phase = .none := rfl
@[simp] theorem State.raise_lastop (s : State) (b : Bool) (e : ErrCode) : (s.raise b e).lastop = s.lastop := rfl
@[simp] theorem State.raise_pos (s : State) (b : Bool) (e : ErrCode) : (s.raise b e).pos = s.pos := rfl
@[simp] theorem State.raise_hpos (s : State) (b : Bool) (e : ErrCode) : (s.raise b e).hpos = s.hpos := rfl
@[simp] theorem State.raise_hdr (s : State) (b : Bool) (e : ErrCode) : (s.raise b e).hdr = s.hdr := rfl
@[simp] theorem State.raise_kt1 (s : State) (b : Bool) (e : ErrCode) : (s.raise b e).kt1 = s.kt1 := rfl
@[simp] theorem State.raise_kt2 (s : State) (b : Bool) (e : ErrCode) : (s.raise b e).kt2 = s.kt2 := rfl
@[simp] theorem State.raise_srcStat (s : State) (b : Bool) (e : ErrCode) : (s.raise b e).srcStat = s.srcStat := rfl
@[simp] theorem State.raise_snkStat (s : State) (b : Bool) (e : ErrCode) : (s.raise b e).snkStat = s.snkStat := rfl
@[simp] theorem State.raise_srcAnswers (s : State) (b : Bool) (e : ErrCode) : (s.raise b e).srcAnswers = s.srcAnswers := rfl
@[simp] theorem State.raise_snkAnswers (s : State) (b : Bool) (e : ErrCode) : (s.raise b e).snkAnswers = s.snkAnswers := rfl
@[simp] theorem State.raise_host (s : State) (b : Bool) (e : ErrCode) : (s.raise b e).host = s.host := rfl
@[simp] theorem State.raise_history (s : State) (b : Bool) (e : ErrCode) : (s.raise b e).history = s.history ++ s.releases b := rfl

/-! ### Leaving the Error state -/

@[simp] theorem State.leaveError_cfg (s : State) : (s.leaveError).cfg = s.cfg := rfl
@[simp] theorem State.leaveError_base (s : State) : (s.leaveError).base = s.base := rfl
@[simp] theorem State.leaveError_cid (s : State) : (s.leaveError).cid = s.cid := rfl
@[simp] theorem State.leaveError_srclen (s : State) : (s.leaveError).srclen = s.srclen := rfl
@[simp] theorem State.leaveError_xlen (s : State) : (s.leaveError).xlen = s.xlen := rfl
@[simp] theorem State.leaveError_state (s : State) : (s.leaveError).state = .idle := rfl
@[simp] theorem State.leaveError_tsel (s : State) : (s.leaveError).tsel = s.tsel := rfl
@[simp] theorem State.leaveError_hdrv (s : State) : (s.leaveError).hdrv = s.hdrv := rfl
@[simp] theorem State.leaveError_wsize (s : State) : (s.leaveError).wsize = s.wsize := rfl
@[simp] theorem State.leaveError_err (s : State) : (s.leaveError).err = .none := rfl
@[simp] theorem State.leaveError_phase (s : State) : (s.leaveError).phase = s.phase := rfl
@[simp] theorem State.leaveError_lastop (s : State) : (s.leaveError).lastop = s.lastop := rfl
@[simp] theorem State.leaveError_pos (s : State) : (s.leaveError).pos = s.pos := rfl
@[simp] theorem State.leaveError_hpos (s : State) : (s.leaveError).hpos = s.hpos := rfl
@[simp] theorem State.leaveError_hdr (s : State) : (s.leaveError).hdr = s.hdr := rfl
@[simp] theorem State.leaveError_kt1 (s : State) : (s.leaveError).kt1 = s.kt1 := rfl
@[simp] theorem State.leaveError_kt2 (s : State) : (s.leaveError).kt2 = s.kt2 := rfl
@[simp] theorem State.leaveError_srcStat (s : State) : (s.leaveError).srcStat = s.srcStat := rfl
@[simp] theorem State.leaveError_snkStat (s : State) : (s.leaveError).snkStat = s.snkStat := rfl
@[simp] theorem State.leaveError_srcAnswers (s : State) : (s.leaveError).srcAnswers = s.srcAnswers := rfl
@[simp] theorem State.leaveError_snkAnswers (s : State) : (s.leaveError).snkAnswers = s.snkAnswers := rfl
@[simp] theorem State.leaveError_host (s : State) : (s.leaveError).host = s.host := rfl
@[simp] theorem State.leaveError_history (s : State) : (s.leaveError).history = s.history := rfl

end Sys2Proof.Machine
end

