-- ==== Sys2Proof/Laws/Ops.lean ====
section
/-! SUPPORT. One lemma per shared operation: acceptance, the stream primitives, the release events. -/

namespace Sys2Proof.Machine

open Sys2Proof

theorem State.busy_eq_false_iff (s : State) : s.busy = false ↔ s.phase = .none := by
  unfold State.busy; cases s.phase <;> simp

theorem State.busy_eq_true_iff (s : State) : s.busy = true ↔ s.phase ≠ .none := by
  unfold State.busy; cases s.phase <;> simp

/-- When a command is accepted (42_control.md R126 to R128). -/
theorem State.accepts_iff (s : State) (op : OpCode) :
    s.accepts op = true ↔ s.phase = .none ∧ (s.state ≠ .error ∨ op = 0x0#4 ∨ op = 0x7#4) := by
  simp only [State.accepts, Bool.and_eq_true, Bool.or_eq_true, Bool.not_eq_true', State.busy_eq_false_iff, bne_iff_ne,
    beq_iff_eq, ne_eq, or_assoc]

theorem State.onAccept_of_accepts {s : State} {op : OpCode} (h : s.accepts op = true) (body : State → Result) :
    s.onAccept op body = body { s with lastop := op } := by
  rw [State.onAccept, if_pos h]

theorem State.onAccept_of_ignored {s : State} {op : OpCode} (h : s.accepts op = false) (body : State → Result) :
    s.onAccept op body = .next s := by
  rw [State.onAccept, if_neg (by simp [h])]

/-- In Idle, Encoding or Decoding a command that finds the engine free is accepted. -/
theorem State.accepts_of_free {s : State} (hp : s.phase = .none) (he : s.state ≠ .error) (op : OpCode) :
    s.accepts op = true :=
  (s.accepts_iff op).2 ⟨hp, .inl he⟩

/-- While busy no command is accepted (42_control.md R127). -/
theorem State.accepts_of_busy {s : State} (hp : s.phase ≠ .none) (op : OpCode) : s.accepts op = false :=
  Bool.eq_false_iff.2 fun h => hp ((s.accepts_iff op).1 h).1

theorem State.srcRead_nil {s : State} (h : s.srcAnswers = []) : s.srcRead = none := by
  rw [State.srcRead, h]

theorem State.srcRead_cons {s : State} {r : SrcAnswer} {rest : List SrcAnswer} (h : s.srcAnswers = r :: rest) :
    s.srcRead = some (r, { s with srcAnswers := rest, history := s.history ++ [.srcRead r] }) := by
  rw [State.srcRead, h]; rfl

theorem State.snkWrite_nil {s : State} (h : s.snkAnswers = []) (b : Byte) : s.snkWrite b = none := by
  rw [State.snkWrite, h]

theorem State.snkWrite_cons {s : State} {r : SnkAnswer} {rest : List SnkAnswer} (h : s.snkAnswers = r :: rest)
    (b : Byte) :
    s.snkWrite b = some (r, { s with snkAnswers := rest, history := s.history ++ [.snkWrite b r] }) := by
  rw [State.snkWrite, h]; rfl

/-- A failing command other than RUN releases nothing (60_exceptions.md R150). -/
theorem State.releases_of_not_run {s : State} (h : s.lastop ≠ 0x1#4) (b : Bool) : s.releases b = [] := by
  rw [State.releases, if_neg h]

theorem State.releases_run_acceptance {s : State} (h : s.lastop = 0x1#4) : s.releases true = s.boundReleases := by
  rw [State.releases, if_pos h, if_pos rfl]

theorem State.releases_run_phase {s : State} (h : s.lastop = 0x1#4) :
    s.releases false = [.srcRelease, .snkClose] := by
  rw [State.releases, if_pos h]; rfl

/-- What `raise` leaves when a free engine's primitive fails in its acceptance step (60_exceptions.md R150). -/
theorem State.raise_primitive {s : State} (e : ErrCode) (op : OpCode) (hp : s.phase = .none) (ho : op ≠ 0x1#4) :
    State.raise { s with lastop := op } true e = { s with lastop := op, err := e, state := .error } := by
  rw [State.raise, State.releases_of_not_run ho]
  simp [State.record, State.enterError, hp]

/-- What `raise` leaves when a free engine's RUN fails in its acceptance step (60_exceptions.md R150). -/
theorem State.raise_run_acceptance {s : State} (e : ErrCode) (hp : s.phase = .none) :
    State.raise { s with lastop := 0x1#4 } true e =
      { s with
        lastop := 0x1#4, err := e, state := .error
        history := s.history ++ ((if s.srcStat = .bound then [.srcRelease] else []) ++
          (if s.snkStat = .bound then [.snkClose] else [])) } := by
  rw [State.raise, State.releases_run_acceptance rfl]
  simp [State.record, State.enterError, hp, State.boundReleases]

/-- CFG.KIND by its two bits (30_encoding.md R80). -/
theorem State.kind_eq (s : State) :
    s.kind =
      if s.cfg.extractLsb' 2 2 = 0b01#2 then some .image
      else if s.cfg.extractLsb' 2 2 = 0b10#2 then some .resource
      else none := by
  unfold State.kind
  generalize s.cfg.extractLsb' 2 2 = x
  revert x
  decide

/-- KIND does not depend on LASTOP, which acceptance writes. -/
theorem State.kind_setLastop (s : State) (op : OpCode) : State.kind { s with lastop := op } = s.kind := rfl

/-- RUN's checks by the bits of CFG (42_control.md R130). -/
theorem State.runCheck_eq (s : State) :
    s.runCheck =
      if s.cfg[0] = true ∧ s.cfg[1] = true then some .modeConflict
      else if ¬ s.cfg[0] = true ∧ ¬ s.cfg[1] = true then some .noOperation
      else if s.srcStat = .unbound ∨ s.snkStat = .unbound then some .missingIo
      else if s.cfg[0] = true ∧ s.cfg.extractLsb' 2 2 ≠ 0b01#2 ∧ s.cfg.extractLsb' 2 2 ≠ 0b10#2 then some .invalidMode
      else if s.cfg[0] = true ∧ s.cfg.extractLsb' 2 2 = 0b01#2 ∧ normBase s.base = none then some .invalidBase
      else if s.srcStat = .openFailed ∨ s.snkStat = .openFailed then some .openError
      else if s.cfg[1] = true ∧ s.srclen.toNat < 128 then some .truncHeader
      else none := by
  have k0 : s.kind = none ↔ s.cfg.extractLsb' 2 2 ≠ 0b01#2 ∧ s.cfg.extractLsb' 2 2 ≠ 0b10#2 := by
    rw [State.kind_eq]; split_ifs <;> simp_all
  have k1 : s.kind = some .image ↔ s.cfg.extractLsb' 2 2 = 0b01#2 := by
    rw [State.kind_eq]; split_ifs <;> simp_all
  simp only [← k0, ← k1]
  rfl

@[simp] theorem sinkBytes_nil : sinkBytes [] = [] := rfl

theorem sinkBytes_append (a b : List Event) : sinkBytes (a ++ b) = sinkBytes a ++ sinkBytes b := by
  simp [sinkBytes, List.filterMap_append]

theorem sourceBytes_append (a b : List Event) : sourceBytes (a ++ b) = sourceBytes a ++ sourceBytes b := by
  simp [sourceBytes, List.filterMap_append]

/-- Release events write nothing to the sink. -/
theorem sinkBytes_releases (s : State) (b : Bool) : sinkBytes (s.releases b) = [] := by
  unfold State.releases State.boundReleases
  split_ifs <;> rfl

end Sys2Proof.Machine
end

