-- ==== Sys2Proof/Laws/Moves.lean ====
section
/-! SUPPORT. What a step can do, said once: the moves of the engine, of a command and of the host, each step one of them. -/

namespace Sys2Proof.Machine

open Sys2Proof

/-- The moves of the engine (42_control.md R125). -/
inductive EngineMove (s : State) : State → Prop where
  | hold : EngineMove s s
  | headerEof {rest : List SrcAnswer} (hp : s.phase = .hdrIn) (hh : s.hpos.toNat < 128)
      (ha : s.srcAnswers = .eof :: rest) :
      EngineMove s (State.raise { s with srcAnswers := rest, history := s.history ++ [.srcRead .eof] } false .truncHeader)
  | headerIn {b : Byte} {rest : List SrcAnswer} (hp : s.phase = .hdrIn) (hh : s.hpos.toNat < 128)
      (ha : s.srcAnswers = .byte b :: rest) :
      EngineMove s
        (State.headerByteIn { s with srcAnswers := rest, history := s.history ++ [.srcRead (.byte b)] } b)
  | headerFail {rest : List SnkAnswer} (hp : s.phase = .hdrOut) (hh : s.hpos.toNat < 128)
      (ha : s.snkAnswers = .fail :: rest) :
      EngineMove s (State.raise
        { s with snkAnswers := rest, history := s.history ++ [.snkWrite (s.hdr.read s.hpos.toNat) .fail] } false
        .sinkWrite)
  | headerOut {rest : List SnkAnswer} (hp : s.phase = .hdrOut) (hh : s.hpos.toNat < 128)
      (ha : s.snkAnswers = .ok :: rest) :
      EngineMove s (State.headerByteOut
        { s with snkAnswers := rest, history := s.history ++ [.snkWrite (s.hdr.read s.hpos.toNat) .ok] })
  | payloadEof {rest : List SrcAnswer} (hp : s.phase = .payload) (hx : s.pos.toNat < s.xlen.toNat)
      (ha : s.srcAnswers = .eof :: rest) :
      EngineMove s
        (State.raise { s with srcAnswers := rest, history := s.history ++ [.srcRead .eof] } false .truncPayload)
  | payloadFail {b : Byte} {rest : List SrcAnswer} {rest' : List SnkAnswer} (hp : s.phase = .payload)
      (hx : s.pos.toNat < s.xlen.toNat) (ha : s.srcAnswers = .byte b :: rest) (hb : s.snkAnswers = .fail :: rest') :
      EngineMove s (State.raise
        { s with
          srcAnswers := rest, snkAnswers := rest'
          history := s.history ++ [.srcRead (.byte b), .snkWrite (s.payloadByte b) .fail] } false .sinkWrite)
  | payloadOk {b : Byte} {rest : List SrcAnswer} {rest' : List SnkAnswer} (hp : s.phase = .payload)
      (hx : s.pos.toNat < s.xlen.toNat) (ha : s.srcAnswers = .byte b :: rest) (hb : s.snkAnswers = .ok :: rest') :
      EngineMove s
        { s with
          srcAnswers := rest, snkAnswers := rest', pos := s.pos + 1#32
          history := s.history ++ [.srcRead (.byte b), .snkWrite (s.payloadByte b) .ok] }
  | finish (hp : s.phase = .payload) (hx : s.pos = s.xlen) : EngineMove s s.payloadFinish

/-- The engine never touches what the host has planned. -/
theorem EngineMove.host_eq {s t : State} (m : EngineMove s t) : t.host = s.host := by
  cases m with
  | headerIn => unfold State.headerByteIn; simp only; split_ifs <;> rfl
  | headerOut => unfold State.headerByteOut; simp only; split_ifs <;> rfl
  | finish => unfold State.payloadFinish; split_ifs <;> rfl
  | _ => rfl

theorem hdrInStep_move {s t : State} (hp : s.phase = .hdrIn) (h : hdrInStep s = .next t) : EngineMove s t := by
  unfold hdrInStep at h
  split at h
  case isFalse => simp at h
  case isTrue hh =>
    cases ha : s.srcAnswers with
    | nil =>
      rw [State.srcRead_nil ha] at h
      cases h
      exact .hold
    | cons r rest =>
      rw [State.srcRead_cons ha] at h
      cases r with
      | eof => cases h; exact .headerEof hp hh ha
      | byte b => cases h; exact .headerIn hp hh ha

theorem hdrOutStep_move {s t : State} (hp : s.phase = .hdrOut) (h : hdrOutStep s = .next t) : EngineMove s t := by
  unfold hdrOutStep at h
  split at h
  case isFalse => simp at h
  case isTrue hh =>
    cases ha : s.snkAnswers with
    | nil =>
      rw [State.snkWrite_nil ha] at h
      cases h
      exact .hold
    | cons r rest =>
      rw [State.snkWrite_cons ha] at h
      cases r with
      | fail => cases h; exact .headerFail hp hh ha
      | ok => cases h; exact .headerOut hp hh ha

theorem payloadStep_move {s t : State} (hp : s.phase = .payload) (h : payloadStep s = .next t) : EngineMove s t := by
  unfold payloadStep at h
  split_ifs at h with hx hx'
  · unfold payloadByteStep at h
    cases ha : s.srcAnswers with
    | nil =>
      rw [State.srcRead_nil ha] at h
      cases h
      exact .hold
    | cons r rest =>
      rw [State.srcRead_cons ha] at h
      cases r with
      | eof => cases h; exact .payloadEof hp hx ha
      | byte b =>
        cases hb : s.snkAnswers with
        | nil =>
          simp only [State.snkWrite, hb] at h
          cases h
          exact .hold
        | cons r' rest' =>
          simp only [State.snkWrite, hb, State.record, List.append_assoc, List.singleton_append] at h
          cases r' with
          | fail => cases h; exact .payloadFail hp hx ha hb
          | ok => cases h; exact .payloadOk hp hx ha hb
  · cases h; exact .finish hp hx'

/-- Every engine step that answers a next state is one of the moves. -/
theorem engineStep_move {s t : State} (h : engineStep s = .next t) : EngineMove s t := by
  unfold engineStep at h
  cases hp : s.phase <;> simp only [hp] at h
  · cases h; exact .hold
  · exact hdrInStep_move hp h
  · exact hdrOutStep_move hp h
  · exact payloadStep_move hp h

/-- The moves of a command that the engine accepts, from the state with LASTOP written. -/
inductive AcceptedMove (a : State) : Instr → State → Prop where
  | nop : AcceptedMove a .nop a
  | clear : AcceptedMove a .clear a.leaveError
  | illegal (o : BitVec 3) : AcceptedMove a (.illegal o) (a.raise true .illegalCmd)
  | selTable : AcceptedMove a .selTable { a with tsel := a.selectedTable }
  | buildFail {e : ErrCode} (hc : a.buildCheck = some e) : AcceptedMove a .buildHdr (a.raise true e)
  | build (hc : a.buildCheck = none) : AcceptedMove a .buildHdr { a with hdr := a.builtHeader, hdrv := true }
  | readFail {e : ErrCode} (hc : a.readHdrCheck = some e) : AcceptedMove a .readHdr (a.raise true e)
  | read (hc : a.readHdrCheck = none) : AcceptedMove a .readHdr a.headerReadStart
  | emitFail {e : ErrCode} (hc : a.emitHdrCheck = some e) : AcceptedMove a .emitHdr (a.raise true e)
  | emit (hc : a.emitHdrCheck = none) : AcceptedMove a .emitHdr { a with hpos := 0#8, phase := .hdrOut }
  | xformFail {e : ErrCode} (hc : a.xformCheck = some e) : AcceptedMove a .xform (a.raise true e)
  | xform (hc : a.xformCheck = none) : AcceptedMove a .xform { a with pos := 0#32, phase := .payload }
  | runFail {e : ErrCode} (hc : a.runCheck = some e) : AcceptedMove a .run (a.raise true e)
  | runEncode (hc : a.runCheck = none) (he : a.enc = true) : AcceptedMove a .run a.runEncodeSetup
  | runDecode (hc : a.runCheck = none) (he : a.enc = false) : AcceptedMove a .run a.runDecodeSetup

/-- `exec` is acceptance around one of the moves, whatever the command. -/
theorem exec_move {i : Instr} {s t : State} (h : exec i s = .next t) :
    (s.accepts i.op = false ∧ t = s) ∨
      (s.accepts i.op = true ∧ AcceptedMove { s with lastop := i.op } i t) := by
  cases ha : s.accepts i.op with
  | false =>
    left
    refine ⟨rfl, ?_⟩
    cases i <;>
      (simp only [exec, execNop, execRun, execBuildHdr, execReadHdr, execEmitHdr, execSelTable, execXform, execClear,
        execIllegal, Instr.op] at h ha
       rw [State.onAccept_of_ignored ha] at h
       cases h; rfl)
  | true =>
    right
    refine ⟨rfl, ?_⟩
    cases i <;>
      (simp only [exec, execNop, execRun, execBuildHdr, execReadHdr, execEmitHdr, execSelTable, execXform, execClear,
        execIllegal, Instr.op] at h ha ⊢
       rw [State.onAccept_of_accepts ha] at h)
    case nop => cases h; exact .nop
    case selTable => cases h; exact .selTable
    case clear => cases h; exact .clear
    case illegal o => cases h; exact .illegal o
    case buildHdr =>
      split at h
      · cases h; exact .buildFail ‹_›
      · cases h; exact .build ‹_›
    case readHdr =>
      split at h
      · cases h; exact .readFail ‹_›
      · cases h; exact .read ‹_›
    case emitHdr =>
      split at h
      · cases h; exact .emitFail ‹_›
      · cases h; exact .emit ‹_›
    case xform =>
      split at h
      · cases h; exact .xformFail ‹_›
      · cases h; exact .xform ‹_›
    case run =>
      split at h
      · cases h; exact .runFail ‹_›
      · split_ifs at h with he
        · cases h; exact .runEncode ‹_› he
        · cases h; exact .runDecode ‹_› (by simpa using he)

/-- A command that is not accepted changes nothing (42_control.md R126). -/
theorem exec_ignored {i : Instr} {s : State} (h : s.accepts i.op = false) : exec i s = .next s := by
  cases i <;>
    (simp only [exec, execNop, execRun, execBuildHdr, execReadHdr, execEmitHdr, execSelTable, execXform, execClear,
      execIllegal, Instr.op] at h ⊢
     exact State.onAccept_of_ignored h _)

/-- No command ever stops the machine. -/
theorem exec_answers_next (i : Instr) (s : State) : ∃ t, exec i s = .next t := by
  cases ha : s.accepts i.op <;> cases i <;>
    simp only [exec, execNop, execRun, execBuildHdr, execReadHdr, execEmitHdr, execSelTable, execXform, execClear,
      execIllegal, Instr.op] at ha ⊢ <;>
    first
    | (rw [State.onAccept_of_ignored ha]; exact ⟨_, rfl⟩)
    | (rw [State.onAccept_of_accepts ha]; first | exact ⟨_, rfl⟩ | (split <;> exact ⟨_, rfl⟩))

/-- The moves of the machine: one host action, or the engine's turn (20_memory.md R55, R59). -/
inductive StepMove (s : State) : State → Prop where
  | engine {t : State} (hh : s.host = []) (hm : EngineMove s t) : StepMove s t
  | tick {rest : List HostAct} {t : State} (hh : s.host = .tick :: rest) (hm : EngineMove { s with host := rest } t) :
      StepMove s t
  | busError {rest : List HostAct} {x : BusTxn} {e : BusReject} (hh : s.host = .bus x :: rest)
      (ht : x.target = .error e) : StepMove s (State.record { s with host := rest } [.access x .busError])
  | busRead {rest : List HostAct} {x : BusTxn} {r : Reg} (hh : s.host = .bus x :: rest) (ht : x.target = .ok r)
      (hk : x.kind = .rd) : StepMove s (State.record { s with host := rest } [.access x (.data (s.readReg r))])
  | busWrite {rest : List HostAct} {x : BusTxn} {r : Reg} (hh : s.host = .bus x :: rest) (ht : x.target = .ok r)
      (hk : x.kind = .wr) (hc : r ≠ .cmd) :
      StepMove s (State.writeReg (State.record { s with host := rest } [.access x .done]) r x.data)
  | command {rest : List HostAct} {x : BusTxn} {t : State} (hh : s.host = .bus x :: rest) (ht : x.target = .ok .cmd)
      (hk : x.kind = .wr) (hm : exec (decode x.data) (State.record { s with host := rest } [.access x .done]) = .next t) :
      StepMove s t
  | ports {rest : List HostAct} {p q : PortStat} (hh : s.host = .ports p q :: rest) :
      StepMove s (State.record { s with host := rest, srcStat := p, snkStat := q } [.portsDriven p q])
  | answerSource {rest : List HostAct} {r : SrcAnswer} (hh : s.host = .answerSource r :: rest) :
      StepMove s { s with host := rest, srcAnswers := s.srcAnswers ++ [r] }
  | answerSink {rest : List HostAct} {r : SnkAnswer} (hh : s.host = .answerSink r :: rest) :
      StepMove s { s with host := rest, snkAnswers := s.snkAnswers ++ [r] }
  | reset {rest : List HostAct} (hh : s.host = .reset :: rest) :
      StepMove s (State.record (State.resetEngine { s with host := rest }) [.resetTaken])
  | wait {rest : List HostAct} {gap : Nat} (hh : s.host = .wait gap :: rest) :
      StepMove s (pollStep gap { s with host := rest })

theorem busAccess_move {s t : State} {rest : List HostAct} {x : BusTxn} (hh : s.host = .bus x :: rest)
    (h : busAccess x { s with host := rest } = .next t) : StepMove s t := by
  unfold busAccess at h
  cases ht : x.target with
  | error e => simp only [ht] at h; cases h; exact .busError hh ht
  | ok r =>
    cases hk : x.kind with
    | rd => simp only [ht, hk] at h; cases h; exact .busRead hh ht hk
    | wr =>
      simp only [ht, hk] at h
      cases r <;> simp only [Sys2Proof.Machine.busWrite] at h
      case cmd => exact .command hh ht hk h
      all_goals (cases h; exact .busWrite hh ht hk (by simp))

/-- Every step that answers a next state is one of the moves. -/
theorem step_move {s t : State} (h : step s = .next t) : StepMove s t := by
  unfold step at h
  cases hh : s.host with
  | nil => simp only [hh] at h; exact .engine hh (engineStep_move h)
  | cons a rest =>
    simp only [hh] at h
    cases a <;> simp only [hostStep] at h
    case bus x => exact busAccess_move hh h
    case ports p q => cases h; exact .ports hh
    case answerSource r => cases h; exact .answerSource hh
    case answerSink r => cases h; exact .answerSink hh
    case reset => cases h; exact .reset hh
    case tick => exact .tick hh (engineStep_move h)
    case wait gap => cases h; exact .wait hh

end Sys2Proof.Machine
end

