-- ==== Sys2Proof/Laws/Invariant.lean ====
section
/-! SUPPORT. Each move of the engine, of a command and of the host keeps the invariant; these are the cases a proof about
every step is assembled from. -/

namespace Sys2Proof.Machine

open Sys2Proof

/-- The invariant says nothing about the host's side. -/
theorem State.Inv.withHostSide {s : State} (h : s.Inv) (p q : PortStat) (ra : List SrcAnswer) (rk : List SnkAnswer)
    (ho : List HostAct) (hi : List Event) :
    State.Inv { s with srcStat := p, snkStat := q, srcAnswers := ra, snkAnswers := rk, host := ho, history := hi } :=
  ⟨h.hdrWf, h.hposLe, h.hposLt, h.posLe, h.errIff, h.errorNotBusy, h.runIff, h.hdrInOp, h.hdrOutOp, h.payloadOp,
    h.hdrInSrclen, h.hdrInFresh, h.encodeSetup, h.decodeSetup, h.decodePos, h.decodeHdrv⟩

theorem State.Inv.record {s : State} (h : s.Inv) (es : List Event) : (s.record es).Inv :=
  h.withHostSide s.srcStat s.snkStat s.srcAnswers s.snkAnswers s.host (s.history ++ es)

/-- Error entry needs nothing of the state but its header and HPOS. -/
theorem inv_raise {s : State} (hw : s.hdr.wf = true) (hh : s.hpos.toNat ≤ 128) (b : Bool) {e : ErrCode}
    (he : e ≠ .none) : (s.raise b e).Inv := by
  constructor <;> simp [State.inRun, hw, hh, he]

/-- In a state with no phase, STATE is Idle or Error. -/
theorem State.Inv.not_inRun {s : State} (h : s.Inv) (hp : s.phase = .none) : ¬ s.inRun :=
  fun hr => (h.runIff.1 hr).1 hp

/-- Idle with nothing running: what a state needs so that the invariant holds in it. -/
theorem inv_of_idle {s : State} (hw : s.hdr.wf = true) (hh : s.hpos.toNat ≤ 128) (hs : s.state = .idle)
    (he : s.err = .none) (hp : s.phase = .none) : s.Inv := by
  constructor <;> simp [State.inRun, hw, hh, hs, he, hp]

/-- In a state with no phase LASTOP is free. -/
theorem State.Inv.setLastop {s : State} (h : s.Inv) (hp : s.phase = .none) (op : OpCode) :
    State.Inv { s with lastop := op } := by
  have hr := h.not_inRun hp
  exact ⟨h.hdrWf, h.hposLe, h.hposLt, h.posLe, h.errIff, h.errorNotBusy,
    ⟨fun x => absurd x hr, fun x => absurd hp x.1⟩, fun x => (nomatch hp.symm.trans x), fun x => (nomatch hp.symm.trans x),
    fun x => (nomatch hp.symm.trans x), h.hdrInSrclen, h.hdrInFresh, h.encodeSetup, h.decodeSetup, h.decodePos, h.decodeHdrv⟩

theorem State.Inv.err_of_idle {s : State} (h : s.Inv) (hs : s.state = .idle) : s.err = .none := by
  by_contra hne
  have := h.errIff.2 hne
  rw [hs] at this
  cases this

/-- With nothing running and no error, STATE is Idle. -/
theorem State.Inv.idle_of_free {s : State} (h : s.Inv) (hp : s.phase = .none) (he : s.state ≠ .error) :
    s.state = .idle := by
  have hr := h.not_inRun hp
  cases hs : s.state with
  | idle => rfl
  | encoding => exact absurd (.inl hs) hr
  | decoding => exact absurd (.inr hs) hr
  | error => exact absurd hs he

theorem State.buildCheck_ne_none {s : State} {e : ErrCode} (h : s.buildCheck = some e) : e ≠ .none := by
  unfold State.buildCheck at h
  split at h
  · cases h; simp
  · cases h
  · split at h <;> cases h; simp

theorem State.readHdrCheck_ne_none {s : State} {e : ErrCode} (h : s.readHdrCheck = some e) : e ≠ .none := by
  unfold State.readHdrCheck at h
  split_ifs at h <;> (cases h; simp)

theorem State.emitHdrCheck_ne_none {s : State} {e : ErrCode} (h : s.emitHdrCheck = some e) : e ≠ .none := by
  unfold State.emitHdrCheck at h
  split_ifs at h <;> (cases h; simp)

theorem State.xformCheck_ne_none {s : State} {e : ErrCode} (h : s.xformCheck = some e) : e ≠ .none := by
  unfold State.xformCheck at h
  split_ifs at h <;> (cases h; simp)

theorem State.runCheck_ne_none {s : State} {e : ErrCode} (h : s.runCheck = some e) : e ≠ .none := by
  unfold State.runCheck at h
  split_ifs at h <;> (cases h; simp)

theorem builtHeader_wf (s : State) : s.builtHeader.wf = true := by
  unfold State.builtHeader
  split
  · exact buildHeader_wf _ _ _
  · rfl

/-- READ_HDR's checks pass only with at least a header's worth of source (40_header_codec.md R95). -/
theorem State.srclen_of_readHdrCheck {s : State} (h : s.readHdrCheck = none) : 128 ≤ s.srclen.toNat := by
  unfold State.readHdrCheck at h
  split_ifs at h with h1 h2 h3
  exact Nat.le_of_not_lt h3

/-- A RUN whose checks pass has exactly one of ENC and DEC, and a decode has a header's worth of source
(42_control.md R130). -/
theorem State.of_runCheck {s : State} (h : s.runCheck = none) :
    s.dec = !s.enc ∧ (s.enc = false → 128 ≤ s.srclen.toNat) := by
  unfold State.runCheck at h
  split_ifs at h with h1 h2 h3 h4 h5 h6 h7
  rw [show Config.hdrSize = 128 from rfl] at h7
  cases he : s.enc <;> cases hd : s.dec <;> simp [he, hd] at h1 h2 h7 ⊢
  exact h7

/-- An accepted command keeps the invariant. -/
theorem AcceptedMove.keeps_inv {a t : State} {i : Instr} (m : AcceptedMove a i t) (h : a.Inv) (hp : a.phase = .none)
    (ho : a.lastop = i.op) (he : a.state ≠ .error ∨ i = .nop ∨ i = .clear) : t.Inv := by
  have idle : i ≠ .nop → i ≠ .clear → a.state = .idle := fun h1 h2 =>
    h.idle_of_free hp (by tauto)
  cases m with
  | nop => exact h
  | clear => exact inv_of_idle h.hdrWf h.hposLe rfl rfl hp
  | illegal o => exact inv_raise h.hdrWf h.hposLe true (by simp)
  | selTable =>
    have hs := idle (by simp) (by simp)
    exact inv_of_idle h.hdrWf h.hposLe hs (h.err_of_idle hs) hp
  | buildFail hc => exact inv_raise h.hdrWf h.hposLe true (State.buildCheck_ne_none hc)
  | build hc =>
    have hs := idle (by simp) (by simp)
    exact inv_of_idle (builtHeader_wf a) h.hposLe hs (h.err_of_idle hs) hp
  | readFail hc => exact inv_raise h.hdrWf h.hposLe true (State.readHdrCheck_ne_none hc)
  | read hc =>
    have hs := idle (by simp) (by simp)
    have hsrc := State.srclen_of_readHdrCheck hc
    constructor <;>
      simp [State.headerReadStart, State.inRun, hs, h.err_of_idle hs, ho, Instr.op, hsrc]
  | emitFail hc => exact inv_raise h.hdrWf h.hposLe true (State.emitHdrCheck_ne_none hc)
  | emit hc =>
    have hs := idle (by simp) (by simp)
    have hw := h.hdrWf
    constructor <;> simp [State.inRun, hs, h.err_of_idle hs, ho, Instr.op, hw]
  | xformFail hc => exact inv_raise h.hdrWf h.hposLe true (State.xformCheck_ne_none hc)
  | xform hc =>
    have hs := idle (by simp) (by simp)
    have hw := h.hdrWf
    have hl := h.hposLe
    constructor <;> simp [State.inRun, hs, h.err_of_idle hs, ho, Instr.op, hw, hl]
  | runFail hc => exact inv_raise h.hdrWf h.hposLe true (State.runCheck_ne_none hc)
  | runEncode hc hen =>
    have hs := idle (by simp) (by simp)
    have hw := builtHeader_wf a
    constructor <;> simp [State.runEncodeSetup, State.inRun, h.err_of_idle hs, ho, Instr.op, hw]
  | runDecode hc hen =>
    have hs := idle (by simp) (by simp)
    have hsrc := (State.of_runCheck hc).2 hen
    constructor <;>
      simp [State.runDecodeSetup, State.headerReadStart, State.inRun, h.err_of_idle hs, ho, Instr.op, hsrc]

/-- NOP and CLEAR have the OP values that Error accepts; no other command does. -/
theorem Instr.op_eq_zero {i : Instr} (h : i.op = 0x0#4) : i = .nop := by
  cases i <;> simp [Instr.op] at h ⊢
  rename_i o
  exact absurd h (by revert o; decide)

theorem Instr.op_eq_seven {i : Instr} (h : i.op = 0x7#4) : i = .clear := by
  cases i <;> simp [Instr.op] at h ⊢
  rename_i o
  exact absurd h (by revert o; decide)

/-- A command, accepted or ignored, keeps the invariant. -/
theorem exec_keeps_inv {i : Instr} {s t : State} (h : s.Inv) (hx : exec i s = .next t) : t.Inv := by
  rcases exec_move hx with ⟨-, rfl⟩ | ⟨ha, m⟩
  · exact h
  · obtain ⟨hp, he⟩ := (s.accepts_iff i.op).1 ha
    refine m.keeps_inv (h.setLastop hp i.op) hp rfl ?_
    rcases he with he | he | he
    · exact .inl he
    · exact .inr (.inl (Instr.op_eq_zero he))
    · exact .inr (.inr (Instr.op_eq_seven he))

theorem hpos_succ {x : BitVec 8} (h : x.toNat < 128) : (x + 1#8).toNat = x.toNat + 1 := by
  rw [BitVec.toNat_add]
  simp
  omega

theorem hpos_eq_iff {x : BitVec 8} (h : x.toNat < 128) : x + 1#8 = 128#8 ↔ x.toNat = 127 := by
  rw [← BitVec.toNat_inj, hpos_succ h]
  simp

theorem headerByteIn_keeps_inv {s : State} (h : s.Inv) (hp : s.phase = .hdrIn) (hh : s.hpos.toNat < 128) (b : Byte) :
    (s.headerByteIn b).Inv := by
  have hw := Memory.wf_write h.hdrWf b hh
  have hn := hpos_succ hh
  have hop := h.hdrInOp hp
  have herr : s.err = .none := by
    by_contra hne
    have := h.errIff.2 hne
    rcases hop with h1 | h1
    · rw [h1] at this; cases this
    · rw [h1.1] at this; cases this
  unfold State.headerByteIn
  by_cases hlast : s.hpos + 1#8 = 128#8
  · simp only [hlast, if_true]
    rcases hop with h1 | h1
    · have hl := (h.runIff.1 (.inr h1)).2
      have hd := h.decodeSetup h1
      have hx := h.decodePos h1 hp
      constructor <;> simp [State.headerReadComplete, State.inRun, h1, hl, hw, herr, hd, hx]
    · constructor <;> simp [State.headerReadComplete, State.inRun, h1, hw, herr]
  · simp only [hlast, if_false]
    have hlt : (s.hpos + 1#8).toNat < 128 := by
      rw [hn]
      have := mt (hpos_eq_iff hh).2 hlast
      omega
    obtain ⟨f1, f2, f3⟩ := h.hdrInFresh hp
    refine ⟨hw, by simp only; omega, fun _ => hlt, fun x => (nomatch hp.symm.trans x), h.errIff, h.errorNotBusy, h.runIff,
      h.hdrInOp, h.hdrOutOp, h.payloadOp, h.hdrInSrclen, fun _ => ⟨f1, f2, fun k hk => ?_⟩, h.encodeSetup, h.decodeSetup,
      h.decodePos, h.decodeHdrv⟩
    simp only at hk
    rw [Memory.read_write h.hdrWf, if_neg (by omega)]
    exact f3 k (by omega)

/-- While a phase runs there is no error (60_exceptions.md R150). -/
theorem State.Inv.err_of_busy {s : State} (h : s.Inv) (hp : s.phase ≠ .none) : s.err = .none := by
  by_contra hne
  exact hp (h.errorNotBusy (h.errIff.2 hne))

theorem headerByteOut_keeps_inv {s : State} (h : s.Inv) (hp : s.phase = .hdrOut) (hh : s.hpos.toNat < 128) :
    s.headerByteOut.Inv := by
  have hw := h.hdrWf
  have hn := hpos_succ hh
  have herr := h.err_of_busy (by simp [hp])
  unfold State.headerByteOut
  by_cases hlast : s.hpos + 1#8 = 128#8
  · simp only [hlast, if_true]
    rcases h.hdrOutOp hp with h1 | h1
    · have hl := (h.runIff.1 (.inl h1)).2
      have hd := h.encodeSetup h1
      constructor <;> simp [State.inRun, h1, hl, hw, herr, hd]
    · constructor <;> simp [State.inRun, h1, hw, herr]
  · simp only [hlast, if_false]
    have hlt : (s.hpos + 1#8).toNat < 128 := by
      rw [hn]
      have := mt (hpos_eq_iff hh).2 hlast
      omega
    exact ⟨hw, by simp only; omega, fun _ => hlt, fun x => (nomatch hp.symm.trans x), h.errIff, h.errorNotBusy, h.runIff,
      h.hdrInOp, h.hdrOutOp, h.payloadOp, h.hdrInSrclen, fun x => (nomatch hp.symm.trans x), h.encodeSetup,
      h.decodeSetup, h.decodePos, h.decodeHdrv⟩

theorem pos_succ {x y : Word} (h : x.toNat < y.toNat) : (x + 1#32).toNat = x.toNat + 1 := by
  have := y.isLt
  rw [BitVec.toNat_add]
  simp
  omega

theorem payloadOk_keeps_inv {s : State} (h : s.Inv) (hp : s.phase = .payload) (hx : s.pos.toNat < s.xlen.toNat) :
    State.Inv { s with pos := s.pos + 1#32 } :=
  ⟨h.hdrWf, h.hposLe, h.hposLt, fun _ => by simp only [pos_succ hx]; omega, h.errIff, h.errorNotBusy, h.runIff,
    h.hdrInOp, h.hdrOutOp, h.payloadOp, h.hdrInSrclen, h.hdrInFresh, h.encodeSetup, h.decodeSetup,
    fun _ x => (nomatch hp.symm.trans x), h.decodeHdrv⟩

theorem payloadFinish_keeps_inv {s : State} (h : s.Inv) (hp : s.phase = .payload) : s.payloadFinish.Inv := by
  have herr := h.err_of_busy (by simp [hp])
  unfold State.payloadFinish
  by_cases hl : s.lastop = 0x1#4
  · rw [if_pos hl]
    exact inv_of_idle h.hdrWf h.hposLe rfl herr rfl
  · rw [if_neg hl]
    rcases h.payloadOp hp with h1 | h1
    · exact absurd (h.runIff.1 h1).2 hl
    · exact inv_of_idle h.hdrWf h.hposLe h1.1 herr rfl

/-- The engine's moves keep the invariant. -/
theorem EngineMove.keeps_inv {s t : State} (m : EngineMove s t) (h : s.Inv) : t.Inv := by
  cases m with
  | hold => exact h
  | headerEof hp hh ha => apply inv_raise <;> first | exact h.hdrWf | exact h.hposLe | simp
  | headerIn hp hh ha =>
    apply headerByteIn_keeps_inv
    · exact h.withHostSide _ _ _ _ _ _
    · exact hp
    · exact hh
  | headerFail hp hh ha => apply inv_raise <;> first | exact h.hdrWf | exact h.hposLe | simp
  | headerOut hp hh ha =>
    apply headerByteOut_keeps_inv
    · exact h.withHostSide _ _ _ _ _ _
    · exact hp
    · exact hh
  | payloadEof hp hx ha => apply inv_raise <;> first | exact h.hdrWf | exact h.hposLe | simp
  | payloadFail hp hx ha hb => apply inv_raise <;> first | exact h.hdrWf | exact h.hposLe | simp
  | payloadOk hp hx ha hb => exact (payloadOk_keeps_inv h hp hx).withHostSide _ _ _ _ _ _
  | finish hp hx => exact payloadFinish_keeps_inv h hp

/-- A register write that is not a command keeps the invariant: only a free engine takes it (42_control.md R127). -/
theorem writeReg_keeps_inv {s : State} (h : s.Inv) (r : Reg) (w : Word) : (s.writeReg r w).Inv := by
  cases hb : s.busy with
  | true => cases r <;> simp only [State.writeReg, hb, if_true] <;> exact h
  | false =>
    have hp := (s.busy_eq_false_iff).1 hb
    have hr := h.not_inRun hp
    have hs1 : s.state ≠ .encoding := fun x => hr (.inl x)
    have hs2 : s.state ≠ .decoding := fun x => hr (.inr x)
    have frame : ∀ (c : BitVec 4) (b i l x : Word),
        State.Inv { s with cfg := c, base := b, cid := i, srclen := l, xlen := x } := fun c b i l x =>
      ⟨h.hdrWf, h.hposLe, h.hposLt, fun y => (nomatch hp.symm.trans y), h.errIff, h.errorNotBusy, h.runIff, h.hdrInOp,
        h.hdrOutOp, h.payloadOp, fun y => (nomatch hp.symm.trans y), fun y => (nomatch hp.symm.trans y),
        fun y => absurd y hs1, fun y => absurd y hs2, h.decodePos, h.decodeHdrv⟩
    cases r <;> simp only [State.writeReg, hb, Bool.false_eq_true, if_false]
    case cfg => exact frame _ s.base s.cid s.srclen s.xlen
    case base => exact frame s.cfg _ s.cid s.srclen s.xlen
    case cid => exact frame s.cfg s.base _ s.srclen s.xlen
    case srclen => exact frame s.cfg s.base s.cid _ s.xlen
    case xlen => exact frame s.cfg s.base s.cid s.srclen _
    all_goals exact h

theorem resetEngine_inv (s : State) : s.resetEngine.Inv := inv_of_idle rfl (Nat.zero_le 128) rfl rfl rfl

theorem pollStep_keeps_inv {s : State} (h : s.Inv) (gap : Nat) : (pollStep gap s).Inv := by
  unfold pollStep
  split
  · exact h.withHostSide _ _ _ _ _ _
  · exact h.record _

end Sys2Proof.Machine
end

