-- ==== Sys2Proof/Laws/Passes.lean ====
section
/-! SUPPORT. Running the engine for many steps: the header-out, header-in and payload passes, each by one induction. -/

namespace Sys2Proof.Machine

open Sys2Proof

@[simp] theorem runFor_zero (s : State) : runFor 0 s = .next s := rfl

/-- One step of a run, as an equation. -/
theorem runFor_step (k : Nat) (s : State) :
    runFor (k + 1) s =
      match step s with
      | .next t => runFor k t
      | .fault r => .fault r
      | .refused r => .refused r := by
  have e := Host.Core.run.eq_2 Sys2Proof.core s k
  have hc : Sys2Proof.core.step s = step s := rfl
  rw [hc] at e
  cases h : step s <;> (rw [h] at e; exact e)

theorem runFor_succ {s t : State} (h : step s = .next t) (k : Nat) : runFor (k + 1) s = runFor k t := by
  rw [runFor_step, h]

/-- Running for a + b steps is running for a and then for b. -/
theorem runFor_add {s t : State} {a : Nat} (h : runFor a s = .next t) (b : Nat) : runFor (a + b) s = runFor b t := by
  induction a generalizing s with
  | zero => cases h; rw [Nat.zero_add]
  | succ a ih =>
    cases hs : step s with
    | next u =>
      rw [runFor_succ hs] at h
      rw [Nat.succ_add, runFor_succ hs]
      exact ih h
    | fault r =>
      rw [runFor_step, hs] at h; cases h
    | refused r =>
      rw [runFor_step, hs] at h; cases h

theorem step_of_host_nil {s : State} (h : s.host = []) : step s = engineStep s := by
  rw [step, h]

theorem step_of_host_cons {s : State} {a : HostAct} {rest : List HostAct} (h : s.host = a :: rest) :
    step s = hostStep a { s with host := rest } := by
  rw [step, h]

theorem step_of_tick {s : State} {rest : List HostAct} (h : s.host = .tick :: rest) :
    step s = engineStep { s with host := rest } := step_of_host_cons h

/-- A poll of `wait` that finds the engine free ends it. -/
theorem step_wait_free {s : State} {gap : Nat} {rest : List HostAct} (h : s.host = .wait gap :: rest)
    (hp : s.phase = .none) :
    step s = .next
      { s with host := rest, history := s.history ++ [.access (BusTxn.read .status) (.data s.statusWord)] } := by
  rw [step_of_host_cons h]
  simp only [hostStep, pollStep]
  rw [if_neg (by rw [(State.busy_eq_false_iff _).2 (by exact hp)]; simp)]
  rfl

/-! ### One engine step in each phase, as an equation -/

theorem engineStep_of_hdrIn {s : State} (hp : s.phase = .hdrIn) : engineStep s = hdrInStep s := by
  rw [engineStep, hp]

theorem engineStep_of_hdrOut {s : State} (hp : s.phase = .hdrOut) : engineStep s = hdrOutStep s := by
  rw [engineStep, hp]

theorem engineStep_of_payload {s : State} (hp : s.phase = .payload) : engineStep s = payloadStep s := by
  rw [engineStep, hp]

theorem engineStep_headerIn {s : State} {b : Byte} {rest : List SrcAnswer} (hp : s.phase = .hdrIn)
    (hh : s.hpos.toNat < 128) (ha : s.srcAnswers = .byte b :: rest) :
    engineStep s = .next
      (State.headerByteIn { s with srcAnswers := rest, history := s.history ++ [.srcRead (.byte b)] } b) := by
  rw [engineStep_of_hdrIn hp]
  rw [hdrInStep, if_pos (show s.hpos.toNat < Config.hdrSize from hh), State.srcRead_cons ha]

theorem engineStep_headerOut {s : State} {rest : List SnkAnswer} (hp : s.phase = .hdrOut) (hh : s.hpos.toNat < 128)
    (ha : s.snkAnswers = .ok :: rest) :
    engineStep s = .next (State.headerByteOut
      { s with snkAnswers := rest, history := s.history ++ [.snkWrite (s.hdr.read s.hpos.toNat) .ok] }) := by
  rw [engineStep_of_hdrOut hp]
  rw [hdrOutStep, if_pos (show s.hpos.toNat < Config.hdrSize from hh), State.snkWrite_cons ha]

theorem engineStep_payloadOk {s : State} {b : Byte} {rest : List SrcAnswer} {rest' : List SnkAnswer}
    (hp : s.phase = .payload) (hx : s.pos.toNat < s.xlen.toNat) (ha : s.srcAnswers = .byte b :: rest)
    (hb : s.snkAnswers = .ok :: rest') :
    engineStep s = .next
      { s with
        srcAnswers := rest, snkAnswers := rest', pos := s.pos + 1#32
        history := s.history ++ [.srcRead (.byte b), .snkWrite (s.payloadByte b) .ok] } := by
  rw [engineStep_of_payload hp]
  simp only [payloadStep, if_pos hx, payloadByteStep, State.srcRead, ha, State.snkWrite, hb, State.record,
    List.append_assoc, List.singleton_append]

theorem engineStep_finish {s : State} (hp : s.phase = .payload) (hx : s.pos = s.xlen) :
    engineStep s = .next s.payloadFinish := by
  rw [engineStep_of_payload hp]
  rw [payloadStep, if_neg (by rw [hx]; omega), if_pos hx]

theorem engineStep_payloadEof {s : State} {rest : List SrcAnswer} (hp : s.phase = .payload)
    (hx : s.pos.toNat < s.xlen.toNat) (ha : s.srcAnswers = .eof :: rest) :
    engineStep s = .next
      (State.raise { s with srcAnswers := rest, history := s.history ++ [.srcRead .eof] } false .truncPayload) := by
  rw [engineStep_of_payload hp]
  rw [payloadStep, if_pos hx, payloadByteStep, State.srcRead_cons ha]

/-! ### The header-out pass -/

/-- The events of writing n header bytes from index `i` on. -/
def headerOutEvents (m : Memory) (i n : Nat) : List Event :=
  (List.range' i n).map fun k => .snkWrite (m.read k) .ok

theorem sinkBytes_headerOutEvents (m : Memory) (i n : Nat) :
    sinkBytes (headerOutEvents m i n) = (List.range' i n).map m.read := by
  simp [sinkBytes, headerOutEvents, List.filterMap_map]

theorem headerByteOut_of_lt {s : State} (h : s.hpos.toNat + 1 < 128) :
    s.headerByteOut = { s with hpos := s.hpos + 1#8 } := by
  unfold State.headerByteOut
  simp only
  rw [if_neg]
  intro hc
  have := (hpos_eq_iff (by omega)).1 hc
  omega

theorem headerOut_pass (n : Nat) {s : State} {rk : List SnkAnswer} (hh : s.host = []) (hp : s.phase = .hdrOut)
    (hn : s.hpos.toNat + n < 128) (hk : s.snkAnswers = List.replicate n .ok ++ rk) :
    runFor n s = .next
      { s with
        hpos := s.hpos + BitVec.ofNat 8 n, snkAnswers := rk
        history := s.history ++ headerOutEvents s.hdr s.hpos.toNat n } := by
  induction n generalizing s with
  | zero =>
    simp only [List.replicate_zero, List.nil_append] at hk
    subst hk
    simp [headerOutEvents]
  | succ n ih =>
    rw [List.replicate_succ, List.cons_append] at hk
    have h1 : step s = _ := (step_of_host_nil hh).trans (engineStep_headerOut hp (by omega) hk)
    rw [runFor_succ h1, headerByteOut_of_lt (by simp only; omega)]
    have hsucc : (s.hpos + 1#8).toNat = s.hpos.toNat + 1 := hpos_succ (by omega)
    refine Eq.trans (ih hh hp ?_ rfl) ?_
    · simp only [hsucc]; omega
    congr 1
    simp only [State.mk.injEq, true_and]
    refine ⟨?_, ?_⟩
    · rw [BitVec.add_assoc]; congr 1
      apply BitVec.eq_of_toNat_eq; simp; omega
    · simp [headerOutEvents, List.range'_succ, hsucc]

/-! ### The header-in pass -/

/-- Store bytes from index `i` on. -/
def Memory.writeAll (m : Memory) (i : Nat) (bs : List Byte) : Memory :=
  match bs with
  | [] => m
  | b :: rest => Memory.writeAll (m.write i b) (i + 1) rest

theorem Memory.wf_writeAll {m : Memory} (h : m.wf = true) (i : Nat) (bs : List Byte) (hn : i + bs.length ≤ 128) :
    (m.writeAll i bs).wf = true := by
  induction bs generalizing m i with
  | nil => exact h
  | cons b rest ih =>
    simp only [List.length_cons] at hn
    exact ih (Memory.wf_write h b (by omega)) (i + 1) (by omega)

theorem Memory.read_writeAll {m : Memory} (h : m.wf = true) (i : Nat) (bs : List Byte) (hn : i + bs.length ≤ 128)
    (k : Nat) : (m.writeAll i bs).read k = if i ≤ k ∧ k < i + bs.length then bs.getD (k - i) 0#8 else m.read k := by
  induction bs generalizing m i with
  | nil => rw [if_neg (by simp)]; rfl
  | cons b rest ih =>
    simp only [List.length_cons] at hn ⊢
    rw [Memory.writeAll, ih (Memory.wf_write h b (by omega)) (i + 1) (by omega), Memory.read_write h]
    by_cases hk : k = i
    · subst hk
      rw [if_neg (by omega), if_pos rfl, if_pos (by omega), Nat.sub_self]; rfl
    · by_cases hk' : i + 1 ≤ k ∧ k < i + 1 + rest.length
      · rw [if_pos hk', if_pos (by omega), show k - i = (k - (i + 1)) + 1 by omega]; rfl
      · rw [if_neg hk', if_neg hk, if_neg (by omega)]

theorem headerByteIn_of_lt {s : State} (h : s.hpos.toNat + 1 < 128) (b : Byte) :
    s.headerByteIn b = { s with hdr := s.hdr.write s.hpos.toNat b, hpos := s.hpos + 1#8 } := by
  unfold State.headerByteIn
  simp only
  rw [if_neg]
  intro hc
  have := (hpos_eq_iff (by omega)).1 hc
  omega

/-- The events of reading bytes of the source. -/
def readEvents (bs : List Byte) : List Event := bs.map fun b => .srcRead (.byte b)

theorem sinkBytes_readEvents (bs : List Byte) : sinkBytes (readEvents bs) = [] := by
  simp [sinkBytes, readEvents, List.filterMap_map]

theorem headerIn_pass (bs : List Byte) {s : State} {rs : List SrcAnswer} (hh : s.host = []) (hp : s.phase = .hdrIn)
    (hn : s.hpos.toNat + bs.length < 128) (ha : s.srcAnswers = bs.map .byte ++ rs) :
    runFor bs.length s = .next
      { s with
        hpos := s.hpos + BitVec.ofNat 8 bs.length, srcAnswers := rs, hdr := s.hdr.writeAll s.hpos.toNat bs
        history := s.history ++ readEvents bs } := by
  induction bs generalizing s with
  | nil =>
    simp only [List.map_nil, List.nil_append] at ha
    subst ha
    simp [readEvents, Memory.writeAll]
  | cons b rest ih =>
    rw [List.map_cons, List.cons_append] at ha
    simp only [List.length_cons] at hn ⊢
    have h1 : step s = _ := (step_of_host_nil hh).trans (engineStep_headerIn hp (by omega) ha)
    rw [runFor_succ h1, headerByteIn_of_lt (by simp only; omega)]
    have hsucc : (s.hpos + 1#8).toNat = s.hpos.toNat + 1 := hpos_succ (by omega)
    refine Eq.trans (ih hh hp ?_ rfl) ?_
    · simp only [hsucc]; omega
    congr 1
    simp only [State.mk.injEq, true_and]
    refine ⟨?_, ?_, ?_⟩
    · rw [BitVec.add_assoc]; congr 1
      apply BitVec.eq_of_toNat_eq; simp; omega
    · rw [hsucc]; rfl
    · simp [readEvents]

/-! ### The payload pass -/

/-- The events of moving payload bytes from position i on under table t. -/
def payloadEvents (t : Table) (i : Nat) (bs : List Byte) : List Event :=
  match bs with
  | [] => []
  | b :: rest => .srcRead (.byte b) :: .snkWrite (b ^^^ key t i) .ok :: payloadEvents t (i + 1) rest

theorem sinkBytes_payloadEvents (t : Table) (i : Nat) (bs : List Byte) :
    sinkBytes (payloadEvents t i bs) = transformFrom t i bs := by
  induction bs generalizing i with
  | nil => rfl
  | cons b rest ih =>
    show sinkBytes ([.srcRead (.byte b), .snkWrite (b ^^^ key t i) .ok] ++ payloadEvents t (i + 1) rest) = _
    rw [sinkBytes_append, ih]; rfl

/-- The table index of the PAYLOAD step is POS mod 256 (41_keystream.md R117). -/
theorem State.payloadByte_eq (s : State) (b : Byte) : s.payloadByte b = b ^^^ key s.table s.pos.toNat := by
  have : s.pos.extractLsb' 0 8 = BitVec.ofNat 8 s.pos.toNat := by
    apply BitVec.eq_of_toNat_eq; simp
  rw [State.payloadByte, key, this]

theorem payload_pass (bs : List Byte) {s : State} {rs : List SrcAnswer} {rk : List SnkAnswer} (hh : s.host = [])
    (hp : s.phase = .payload) (hn : s.pos.toNat + bs.length ≤ s.xlen.toNat) (ha : s.srcAnswers = bs.map .byte ++ rs)
    (hk : s.snkAnswers = List.replicate bs.length .ok ++ rk) :
    runFor bs.length s = .next
      { s with
        pos := s.pos + BitVec.ofNat 32 bs.length, srcAnswers := rs, snkAnswers := rk
        history := s.history ++ payloadEvents s.table s.pos.toNat bs } := by
  induction bs generalizing s with
  | nil =>
    simp only [List.map_nil, List.nil_append, List.length_nil, List.replicate_zero] at ha hk
    subst ha hk
    simp [payloadEvents]
  | cons b rest ih =>
    rw [List.map_cons, List.cons_append] at ha
    simp only [List.length_cons] at hn hk ⊢
    rw [List.replicate_succ, List.cons_append] at hk
    have h1 : step s = _ := (step_of_host_nil hh).trans (engineStep_payloadOk hp (by omega) ha hk)
    rw [runFor_succ h1]
    have hsucc : (s.pos + 1#32).toNat = s.pos.toNat + 1 := pos_succ (y := s.xlen) (by omega)
    refine Eq.trans (ih hh hp ?_ rfl rfl) ?_
    · simp only [hsucc]; omega
    congr 1
    simp only [State.mk.injEq, true_and]
    refine ⟨?_, ?_⟩
    · rw [BitVec.add_assoc]; congr 1
      apply BitVec.eq_of_toNat_eq; simp; omega
    · rw [hsucc, State.payloadByte_eq]
      simp only [payloadEvents, List.append_assoc, List.cons_append, List.nil_append]
      rfl

/-- The whole of a payload pass whose answers all succeed, finish step included, from its start at POS = 0. -/
theorem payload_whole {s : State} (bs : List Byte) {rs : List SrcAnswer} {rk : List SnkAnswer} (hh : s.host = [])
    (hp : s.phase = .payload) (hx : s.xlen.toNat = bs.length) (h0 : s.pos = 0#32) (ha : s.srcAnswers = bs.map .byte ++ rs)
    (hk : s.snkAnswers = List.replicate bs.length .ok ++ rk) :
    runFor (bs.length + 1) s = .next (State.payloadFinish
      { s with
        pos := s.xlen, srcAnswers := rs, snkAnswers := rk, history := s.history ++ payloadEvents s.table 0 bs }) := by
  have hx' : BitVec.ofNat 32 bs.length = s.xlen := by rw [← hx]; simp
  rw [runFor_add (payload_pass bs hh hp (by rw [h0]; simp; omega) ha hk), h0, hx', BitVec.zero_add]
  have last : ∀ u : State, u.host = [] → u.phase = .payload → u.pos = u.xlen → runFor 1 u = .next u.payloadFinish :=
    fun u h1 h2 h3 => runFor_succ ((step_of_host_nil h1).trans (engineStep_finish h2 h3)) 0
  exact last _ hh hp rfl

/-- The whole of a header-out phase whose answers are all `Ok`. -/
theorem headerOut_whole {s : State} {rk : List SnkAnswer} (hh : s.host = []) (hp : s.phase = .hdrOut)
    (h0 : s.hpos = 0#8) (hk : s.snkAnswers = List.replicate 128 .ok ++ rk) :
    runFor 128 s = .next (
      let t : State :=
        { s with hpos := 128#8, snkAnswers := rk, history := s.history ++ headerOutEvents s.hdr 0 128 }
      if s.lastop = 0x1#4 then { t with pos := 0#32, phase := .payload } else { t with phase := .none }) := by
  have e : s.snkAnswers = List.replicate 127 .ok ++ (.ok :: rk) := by
    rw [hk, show (128 : Nat) = 127 + 1 from rfl, List.replicate_succ']; simp
  have hv : headerOutEvents s.hdr 0 128 = headerOutEvents s.hdr 0 127 ++ [.snkWrite (s.hdr.read 127) .ok] := by
    simp only [headerOutEvents]
    rw [show (128 : Nat) = 127 + 1 from rfl, List.range'_concat]; simp
  have last : ∀ u : State, u.host = [] → u.phase = .hdrOut → u.hpos = 127#8 → u.snkAnswers = .ok :: rk →
      runFor 1 u = .next (
        let t : State :=
          { u with hpos := 128#8, snkAnswers := rk, history := u.history ++ [.snkWrite (u.hdr.read 127) .ok] }
        if u.lastop = 0x1#4 then { t with pos := 0#32, phase := .payload } else { t with phase := .none }) := by
    intro u h1 h2 h3 h4
    have hs := (step_of_host_nil h1).trans (engineStep_headerOut h2 (by rw [h3]; decide) h4)
    refine (runFor_succ hs 0).trans ?_
    simp [State.headerByteOut, h3]
  have pass := headerOut_pass 127 hh hp (by rw [h0]; decide) e
  rw [show (128 : Nat) = 127 + 1 from rfl, runFor_add pass]
  refine Eq.trans (last _ hh hp (by simp only [h0]; rfl) rfl) ?_
  rw [hv, h0]
  simp

theorem sinkBytes_headerOut_whole (m : Memory) : sinkBytes (headerOutEvents m 0 128) = m.bytes := by
  rw [sinkBytes_headerOutEvents, Memory.bytes, show Config.hdrSize = 128 from rfl, List.range_eq_range']

/-! ### The keystream (41_keystream.md) -/

theorem transformFrom_length (t : Table) (i : Nat) (p : List Byte) : (transformFrom t i p).length = p.length := by
  induction p generalizing i with
  | nil => rfl
  | cons b rest ih => rw [transformFrom, List.length_cons, ih, List.length_cons]

end Sys2Proof.Machine
end

