-- ==== Sys2Proof/Laws/PerInstr.lean ====
section
/-! SUPPORT. One lemma per command for each statement about all commands as syntax. -/

namespace Sys2Proof.Laws.RoundTrip

open Sys2Proof

/-- A well-formed command's word decodes to it, and its OP field is the command's OP (30_encoding.md R75, R76). -/
def Statement (i : Instr) : Prop :=
  i.wellFormed = true → decode (encode i) = i ∧ (encode i).extractLsb' 0 4 = i.op ∧ (encode i).toNat < 16

theorem nop : Statement .nop := by unfold Statement; decide
theorem run : Statement .run := by unfold Statement; decide
theorem buildHdr : Statement .buildHdr := by unfold Statement; decide
theorem readHdr : Statement .readHdr := by unfold Statement; decide
theorem emitHdr : Statement .emitHdr := by unfold Statement; decide
theorem selTable : Statement .selTable := by unfold Statement; decide
theorem xform : Statement .xform := by unfold Statement; decide
theorem clear : Statement .clear := by unfold Statement; decide
theorem illegal (o : BitVec 3) : Statement (.illegal o) := by unfold Statement; revert o; decide

end Sys2Proof.Laws.RoundTrip
end

