-- ==== Sys2Proof/Tests/Slice0.lean ====
section
/-! SUPPORT. The model's own tests, and for each obligation with hypotheses a witness that meets them together. Expected
values come from spec/95_test_vectors.md (V, E and P numbers) or are written out from the spec's tables by hand. -/

namespace Sys2Proof.Tests

open Sys2Proof Sys2Proof.Machine

/-! ### Small states -/

/-- The reset state with both ports Bound, where the vectors of 95_test_vectors.md start. -/
def bare : State := { State.reset with srcStat := .bound, snkStat := .bound }

/-- In the Error state with a code. -/
def failed (e : ErrCode) (op : OpCode) : State := { bare with state := .error, err := e, lastop := op }

/-- A READ_HDR that has moved h bytes, with the source's answers. -/
def reading (h : BitVec 8) (ra : List SrcAnswer) : State :=
  { bare with phase := .hdrIn, lastop := 0x3#4, srclen := 128#32, hpos := h, srcAnswers := ra }

/-- A RUN encode whose header is going out, at HPOS = h. -/
def writing (h : BitVec 8) (rk : List SnkAnswer) : State :=
  { bare with
    cfg := 0x5#4, state := .encoding, phase := .hdrOut, lastop := 0x1#4, srclen := 4#32, xlen := 4#32, hdrv := true
    hpos := h, snkAnswers := rk, hdr := [(0x14, 4#8), (0x44, 128#8), (0x6C, 1#8)] }

/-- An XFORM at POS = p of x bytes, with tables of constant bytes. -/
def moving (p x : Word) (ra : List SrcAnswer) (rk : List SnkAnswer) : State :=
  { bare with
    phase := .payload, lastop := 0x6#4, pos := p, xlen := x, srcAnswers := ra, snkAnswers := rk
    kt1 := Vector.replicate 256 0x11#8, kt2 := Vector.replicate 256 0x22#8 }

/-- The state a meaning or a step answers; the reset state where it stops. -/
def out (r : Result) : State :=
  match r with
  | .next t => t
  | .fault _ => State.reset
  | .refused _ => State.reset

/-- What the last event of a step was. -/
def lastEvent (r : Result) : Option Event := (out r).history.getLast?

/-- A 32-bit access as the next host action. -/
def withBus (x : BusTxn) (s : State) : State := { s with host := [.bus x] }

/-! ### Well-formedness refuses an ill-formed term of each kind -/

theorem test_wf_rejects_byte_access : (BusTxn.mk .wr .w8 0x00#8 0#32).wellFormed = false := by decide
theorem test_wf_rejects_half_access : (BusTxn.mk .rd .w16 0x80#8 0#32).wellFormed = false := by decide
theorem test_wf_rejects_misaligned : (BusTxn.mk .rd .w32 0x1E#8 0#32).wellFormed = false := by decide
theorem test_wf_rejects_unmapped_low : (BusTxn.mk .rd .w32 0x28#8 0#32).wellFormed = false := by decide
theorem test_wf_rejects_unmapped_high : (BusTxn.mk .wr .w32 0x7C#8 0#32).wellFormed = false := by decide
theorem test_wf_rejects_write_to_header_word : (HostStmt.wr (.hdr 5#5) 0#32).wellFormed = false := by decide
theorem test_wf_rejects_illegal_mnemonic : (HostStmt.cmd (.illegal 2#3)).wellFormed = false := by decide
theorem test_wf_accepts_edges :
    (BusTxn.mk .rd .w32 0x24#8 0#32).wellFormed = true ∧ (BusTxn.mk .rd .w32 0x80#8 0#32).wellFormed = true ∧
      (BusTxn.mk .rd .w32 0xFC#8 0#32).wellFormed = true := by decide

/-! ### Decoding: OP in bits [3:0], from 30_encoding.md R75 and R76 -/

theorem test_decode_nop : decode 0b00000000000000000000000000000000#32 = .nop := by decide
theorem test_decode_run : decode 0b00000000000000000000000000000001#32 = .run := by decide
theorem test_decode_build_hdr : decode 0b00000000000000000000000000000010#32 = .buildHdr := by decide
theorem test_decode_read_hdr : decode 0b00000000000000000000000000000011#32 = .readHdr := by decide
theorem test_decode_emit_hdr : decode 0b00000000000000000000000000000100#32 = .emitHdr := by decide
theorem test_decode_sel_table : decode 0b00000000000000000000000000000101#32 = .selTable := by decide
theorem test_decode_xform : decode 0b00000000000000000000000000000110#32 = .xform := by decide
theorem test_decode_clear : decode 0b00000000000000000000000000000111#32 = .clear := by decide
/-- V52's word 0xC. -/
theorem test_decode_illegal : decode 0b00000000000000000000000000001100#32 = .illegal 0b100#3 := by decide
/-- V53. -/
theorem test_decode_ignores_high_bits : decode 0xFFFFFFF5#32 = .selTable := by decide
theorem test_decode_table_word :
    decodeTableWord 32 0x0000000C = some (.illegal 0b100#3) ∧ decodeTableWord 32 0x00000007 = some .clear ∧
      decodeTableWord 33 0 = none := by decide

/-! ### Base normalisation: V3, V4, V5, V6, V7, V8, V10 -/

theorem test_norm_base_offset : normBase 0x07FFFFFF#32 = some 0x07FFFFFF#32 := by decide
theorem test_norm_base_absolute :
    normBase 0x08000000#32 = some 0#32 ∧ normBase 0x08012345#32 = some 0x00012345#32 ∧
      normBase 0x080FFFFF#32 = some 0x000FFFFF#32 := by decide
theorem test_norm_base_invalid :
    normBase 0x08100000#32 = none ∧ normBase 0x0FFFFFFF#32 = none ∧ normBase 0x88000000#32 = none := by decide

/-! ### Commands -/

/-- V57. -/
theorem test_nop_in_error : (out (exec .nop (failed .illegalCmd 0xC#4))).statusWord = 0x00000A03#32 := by decide
/-- V58. -/
theorem test_clear : (out (exec .clear (failed .illegalCmd 0x0#4))).statusWord = 0x00700000#32 := by decide
/-- V52. -/
theorem test_illegal : (out (exec (.illegal 0b100#3) bare)).statusWord = 0x00C00A03#32 := by decide
/-- V55. -/
theorem test_run_ignored_in_error :
    (out (exec .run (failed .illegalCmd 0xC#4))).statusWord = (failed .illegalCmd 0xC#4).statusWord := by decide
/-- V12. -/
theorem test_build_image :
    let t := out (exec .buildHdr { bare with cfg := 0x5#4, base := 0x08012345#32, srclen := 0x100#32 })
    t.hdr = [(0x00, 0x45#8), (0x01, 0x23#8), (0x02, 0x01#8), (0x15, 0x01#8), (0x44, 0x80#8), (0x6C, 0x01#8)] ∧
      t.statusWord = 0x00200010#32 := by decide
/-- V16: KIND is checked before BASE. -/
theorem test_build_kind_first :
    (out (exec .buildHdr { bare with cfg := 0xD#4, base := 0x10000000#32 })).statusWord = 0x00200403#32 := by decide
/-- V18. -/
theorem test_read_hdr_short : (out (exec .readHdr { bare with srclen := 127#32 })).err = .truncHeader := by decide
/-- V19d: MISSING_IO before TRUNC_HEADER. -/
theorem test_read_hdr_unbound : (out (exec .readHdr { bare with srcStat := .unbound })).err = .missingIo := by decide
/-- V19h. -/
theorem test_emit_hdr_open_failed : (out (exec .emitHdr { bare with snkStat := .openFailed })).err = .openError := by
  decide
/-- V19f's first step: EMIT_HDR needs neither HDRV nor a source. -/
theorem test_emit_hdr_starts :
    (out (exec .emitHdr { bare with srcStat := .unbound, hpos := 77#8 })).statusWord = 0x00420004#32 ∧
      (out (exec .emitHdr { bare with srcStat := .unbound, hpos := 77#8 })).hpos = 0#8 := by decide
/-- V22. -/
theorem test_sel_table_two : (out (exec .selTable { bare with cid := 2#32 })).statusWord = 0x00500008#32 := by decide
/-- V24. -/
theorem test_sel_table_whole_cid :
    (out (exec .selTable { bare with cid := 0x102#32, tsel := true })).statusWord = 0x00500000#32 := by decide
/-- V33: Unbound is checked first. -/
theorem test_xform_unbound_first :
    (out (exec .xform { bare with srcStat := .unbound, snkStat := .openFailed })).err = .missingIo := by decide
/-- V32, rule R119: the index restarts at 0. -/
theorem test_xform_restarts_pos : (out (exec .xform { bare with pos := 2#32, xlen := 1#32 })).pos = 0#32 := by decide
/-- V40: MISSING_IO before INVALID_MODE, and only the Bound sink is closed. -/
theorem test_run_missing_io :
    (out (exec .run { bare with cfg := 0x1#4, srcStat := .unbound })).err = .missingIo ∧
      (out (exec .run { bare with cfg := 0x1#4, srcStat := .unbound })).history = [.snkClose] := by decide
/-- V46: a decode ignores KIND. -/
theorem test_run_decode_ignores_kind :
    (out (exec .run { bare with cfg := 0xE#4, srclen := 128#32, xlen := 9#32 })).statusWord = 0x00110006#32 ∧
      (out (exec .run { bare with cfg := 0xE#4, srclen := 128#32, xlen := 9#32 })).xlen = 0#32 := by decide

/-! ### Engine steps -/

/-- V19b's last byte: declared = 0 = SRCLEN − 128. -/
theorem test_header_in_last : (out (engineStep (reading 127#8 [.byte 0#8]))).statusWord = 0x00300010#32 := by decide
/-- V19c's last step: Eof in HDR_IN, HPOS stays. -/
theorem test_header_in_eof :
    (out (engineStep (reading 50#8 [.eof]))).statusWord = 0x00300703#32 ∧
      (out (engineStep (reading 50#8 [.eof]))).hpos = 50#8 := by decide
/-- V48: Fail at the first header byte of a RUN, with the releases of R150. -/
theorem test_header_out_fail :
    (out (engineStep (writing 0#8 [.fail]))).history = [.snkWrite 0x00#8 .fail, .srcRelease, .snkClose] := by decide
/-- E5: the byte at 0x44 is 80, and the 128th byte of a RUN starts the payload (P1's poll value). -/
theorem test_header_out_bytes :
    (out (engineStep (writing 0x44#8 [.ok]))).history = [.snkWrite 0x80#8 .ok] ∧
      (out (engineStep (writing 127#8 [.ok]))).statusWord = 0x00130015#32 := by decide
/-- R117: b XOR KT(TSEL + 1), the table chosen by TSEL. -/
theorem test_payload_byte :
    (out (engineStep (moving 0#32 2#32 [.byte 0x10#8] [.ok]))).history =
        [.srcRead (.byte 0x10#8), .snkWrite 0x01#8 .ok] ∧
      (out (engineStep { moving 0#32 2#32 [.byte 0x10#8] [.ok] with tsel := true })).history =
        [.srcRead (.byte 0x10#8), .snkWrite 0x32#8 .ok] := by decide
/-- V30's and V31's last steps. -/
theorem test_payload_errors :
    (out (engineStep (moving 3#32 5#32 [.eof] [.ok]))).statusWord = 0x00600803#32 ∧
      (out (engineStep (moving 2#32 5#32 [.byte 0#8] [.fail]))).statusWord = 0x00600903#32 ∧
      (out (engineStep (moving 2#32 5#32 [.byte 0#8] [.fail]))).srcAnswers = [] := by decide
/-- V27: the finish step of an empty pass. -/
theorem test_payload_finish : (out (engineStep (moving 0#32 0#32 [] []))).statusWord = 0x00600000#32 := by decide

/-! ### The bus and reset -/

/-- V36. -/
theorem test_read_idx :
    lastEvent (step (withBus (.read .idx) { bare with pos := 0x12345#32 })) =
      some (.access (.read .idx) (.data 0x45#32)) := by decide
/-- V65. -/
theorem test_cfg_keeps_four_bits :
    (out (step (withBus (.write .cfg 0xFFFFFFFF#32) bare))).readReg .cfg = 0x0000000F#32 := by decide
/-- V54. -/
theorem test_busy_write_lost : (out (step (withBus (.write .cid 2#32) (writing 5#8 [])))).cid = 1#32 := by decide
/-- V64. -/
theorem test_bus_error :
    lastEvent (step (withBus (BusTxn.mk .rd .w32 0x28#8 0#32) bare)) =
      some (.access (BusTxn.mk .rd .w32 0x28#8 0#32) .busError) := by decide
/-- R39: window word 5 is header bytes 0x14 to 0x17, the first the least significant. -/
theorem test_read_header_word :
    State.readReg { bare with hdr := [(0x14, 0x10#8), (0x15, 0x90#8), (0x16, 0x06#8)] } (.hdr 5#5) = 0x00069010#32 := by
  decide
/-- V61: reset in the middle of a pass. -/
theorem test_reset_aborts :
    (out (step { moving 3#32 5#32 [] [] with host := [.reset] })).statusWord = 0#32 ∧
      (out (step { moving 3#32 5#32 [] [] with host := [.reset] })).cid = 1#32 := by decide
/-- R86, R183: a poll of a busy engine is followed by an engine turn, whatever the gap. -/
theorem test_wait_gives_turn :
    (out (step { moving 5#32 5#32 [] [] with host := [.wait 0] })).host = [.tick, .wait 0] := by decide
/-- A command placed by `withFetchWord` is what the next step runs. -/
theorem test_fetch_word_runs : (out (step (State.reset.withFetchWord 32 0x2))).statusWord = 0x00200403#32 := by decide

/-! ### Witnesses: each meets the hypotheses of the obligation it names, at a boundary of each clause -/

theorem witness_ResetValues : ∃ s : State, s.nextResets ∧ s.phase ≠ .none :=
  ⟨{ moving 3#32 5#32 [] [] with host := [.reset] }, ⟨[], rfl⟩, by decide⟩

theorem witness_ResetMakesNoStreamInteraction : ∃ (s : State) (rest : List HostAct), s.host = .reset :: rest :=
  ⟨{ bare with host := [.reset, .tick] }, [.tick], rfl⟩

theorem witness_DecodeReadsOnlyOp :
    ∃ w w' : Word, w ≠ w' ∧ w'.extractLsb' 0 4 = w.extractLsb' 0 4 := ⟨0x0000000F#32, 0xFFFFFFFF#32, by decide⟩

theorem witness_DecodeEncodeRoundTrip :
    Instr.nop.wellFormed = true ∧ (Instr.illegal 0b111#3).wellFormed = true := by decide

theorem witness_RegisterMapRoundTrip :
    (Reg.decode 0x00#8 matches .ok .cfg) = true ∧ (Reg.decode 0xFC#8 matches .ok (.hdr _)) = true ∧
      ∃ x : BusTxn, x.wellFormed = true :=
  ⟨rfl, rfl, BusTxn.mk .rd .w32 0xFC#8 0#32, by decide⟩

/-- For NopSetsOnlyLastop, ClearLeavesErrorState, IllegalOpRaises and FreeEngineHasNoStep: free in Idle, free in Error, and
busy. -/
theorem witness_accepted_and_ignored :
    bare.phase = .none ∧ bare.state = .idle ∧ bare.err = .none ∧ (failed .sinkWrite 0x6#4).phase = .none ∧
      (failed .sinkWrite 0x6#4).state = .error ∧ (reading 0#8 []).phase ≠ .none := by decide

/-- Each check of RUN is the first that fails in some state, and all pass in some. -/
theorem witness_RunChecksInOrder :
    (State.runCheck { bare with cfg := 0x3#4 } = some .modeConflict) ∧
      (State.runCheck { bare with cfg := 0x0#4 } = some .noOperation) ∧
      (State.runCheck { bare with cfg := 0x1#4, snkStat := .unbound } = some .missingIo) ∧
      (State.runCheck { bare with cfg := 0x1#4, snkStat := .openFailed } = some .invalidMode) ∧
      (State.runCheck { bare with cfg := 0x5#4, base := 0x08100000#32 } = some .invalidBase) ∧
      (State.runCheck { bare with cfg := 0x2#4, srclen := 127#32, srcStat := .openFailed } = some .openError) ∧
      (State.runCheck { bare with cfg := 0x2#4, srclen := 127#32 } = some .truncHeader) ∧
      (State.runCheck { bare with cfg := 0x2#4, srclen := 128#32 } = none) ∧
      (State.runCheck { bare with cfg := 0x9#4, base := 0x08100000#32 } = none) := by decide

theorem witness_RunSetup :
    (∃ s : State, s.phase = .none ∧ s.state ≠ .error ∧ s.srcStat = .bound ∧ s.snkStat = .bound ∧ s.cfg[0] = true ∧
        s.cfg[1] = false ∧ s.cfg.extractLsb' 2 2 = 0b01#2 ∧ normBase s.base = some 0x000FFFFF#32) ∧
      (∃ s : State, s.phase = .none ∧ s.state ≠ .error ∧ s.srcStat = .bound ∧ s.snkStat = .bound ∧ s.cfg[0] = true ∧
        s.cfg[1] = false ∧ s.cfg.extractLsb' 2 2 = 0b10#2) ∧
      ∃ s : State, s.phase = .none ∧ s.state ≠ .error ∧ s.srcStat = .bound ∧ s.snkStat = .bound ∧ s.cfg[0] = false ∧
        s.cfg[1] = true ∧ s.srclen.toNat = 128 :=
  ⟨⟨{ bare with cfg := 0x5#4, base := 0x080FFFFF#32 }, by decide⟩, ⟨{ bare with cfg := 0x9#4 }, by decide⟩,
    ⟨{ bare with cfg := 0x2#4, srclen := 128#32 }, by decide⟩⟩

theorem witness_NormBaseRanges :
    (0x07FFFFFF#32).toNat < 0x08000000 ∧
      (0x08000000 ≤ (0x08000000#32).toNat ∧ (0x080FFFFF#32).toNat < 0x08100000) ∧
      0x08100000 ≤ (0x08100000#32).toNat := by decide

theorem witness_BuildHdrResult :
    bare.phase = .none ∧ bare.state ≠ .error ∧ bare.cfg.extractLsb' 2 2 = 0b00#2 ∧ (0xC#4).extractLsb' 2 2 = 0b11#2 ∧
      (0x4#4).extractLsb' 2 2 = 0b01#2 ∧ (0x8#4).extractLsb' 2 2 = 0b10#2 ∧ normBase 0x08100000#32 = none ∧
      normBase 0x080FFFFF#32 = some 0x000FFFFF#32 := by decide

/-- An accepted BUILD_HDR and an accepted RUN encode. -/
theorem witness_WrittenHeaderHasOneVariant :
    (∃ s t : State, s.phase = .none ∧ s.state ≠ .error ∧ exec .buildHdr s = .next t ∧ t.state ≠ .error) ∧
      ∃ s t : State, s.cfg[0] = true ∧ s.phase = .none ∧ s.state ≠ .error ∧ exec .run s = .next t ∧ t.state ≠ .error :=
  ⟨⟨{ bare with cfg := 0x4#4 }, _, by decide, by decide, rfl, by decide⟩,
    ⟨{ bare with cfg := 0x9#4 }, _, by decide, by decide, by decide, rfl, by decide⟩⟩

theorem witness_BuiltHeaderFields : ∃ k k' : Nat, k < 32 ∧ k' < 32 ∧ k = 0 ∧ k' = 31 := ⟨0, 31, by decide⟩

theorem witness_HeaderFieldsAreLittleEndian : ∃ (m : Memory) (o : Nat), m.wf = true ∧ o + 4 = 128 :=
  ⟨[(127, 0xFF#8)], 124, by decide⟩

theorem witness_ReadHdrAcceptance :
    ∃ s t : State, s.phase = .none ∧ s.state ≠ .error ∧ s.srcStat = .bound ∧ s.srclen.toNat = 127 ∧
      t.phase = .none ∧ t.state ≠ .error ∧ t.srcStat = .bound ∧ t.srclen.toNat = 128 :=
  ⟨{ bare with srclen := 127#32 }, { bare with srclen := 128#32 }, by decide⟩

/-- For ReadHdrAcceptance, EmitHdrAcceptance and XformAcceptance: each port in each of its three conditions. -/
theorem witness_ports (p q : PortStat) :
    ∃ s : State, s.phase = .none ∧ s.state ≠ .error ∧ s.srcStat = p ∧ s.snkStat = q :=
  ⟨{ bare with srcStat := p, snkStat := q }, rfl, by show Mode.idle ≠ Mode.error; decide, rfl, rfl⟩

theorem witness_HeaderInStep (h : BitVec 8) (hh : h = 126#8 ∨ h = 127#8) (ra : List SrcAnswer) :
    ∃ s : State, s.phase = .hdrIn ∧ s.hpos.toNat < 128 ∧ s.hdr.wf = true ∧ s.hpos = h ∧ s.srcAnswers = ra :=
  ⟨reading h ra, rfl, by show h.toNat < 128; rcases hh with rfl | rfl <;> decide, rfl, rfl, rfl⟩

theorem witness_HeaderOutStep (h : BitVec 8) (hh : h = 126#8 ∨ h = 127#8) (rk : List SnkAnswer) (op : OpCode) :
    ∃ s : State, s.phase = .hdrOut ∧ s.hpos.toNat < 128 ∧ s.hpos = h ∧ s.snkAnswers = rk ∧ s.lastop = op :=
  ⟨{ writing h rk with lastop := op }, rfl, by show h.toNat < 128; rcases hh with rfl | rfl <;> decide, rfl, rfl, rfl⟩

theorem witness_SelTableComparesWholeCid :
    bare.phase = .none ∧ bare.state ≠ .error ∧ (2#32 : Word).toNat = 2 ∧ (0x00000102#32 : Word).toNat ≠ 2 ∧
      (3#32 : Word).toNat ≠ 2 := by decide

theorem witness_PayloadByteStep (ra : List SrcAnswer) (rk : List SnkAnswer) :
    ∃ s : State, s.phase = .payload ∧ s.pos.toNat < s.xlen.toNat ∧ s.pos.toNat % 256 = 255 ∧ s.srcAnswers = ra ∧
      s.snkAnswers = rk :=
  ⟨moving 0xFFFFFEFF#32 0xFFFFFF00#32 ra rk, rfl,
    by show (0xFFFFFEFF#32).toNat < (0xFFFFFF00#32).toNat; decide, by show (0xFFFFFEFF#32).toNat % 256 = 255; decide, rfl,
    rfl⟩

theorem witness_PayloadFinishStep (op : OpCode) :
    ∃ s : State, s.phase = .payload ∧ s.pos = s.xlen ∧ s.pos = 0xFFFFFFFF#32 ∧ s.lastop = op :=
  ⟨{ moving 0xFFFFFFFF#32 0xFFFFFFFF#32 [] [] with lastop := op }, rfl, rfl, rfl, rfl⟩

theorem witness_TransformBytes : ∃ (p : List Byte) (i : Nat), i < p.length := ⟨[0x5A#8], 0, by decide⟩

theorem witness_KeystreamHasPeriod256 (t : Table) :
    ∃ (p : List Byte) (i : Nat) (a b x y : Byte), p[i]? = some a ∧ p[i + 256]? = some b ∧
      (transform t p)[i]? = some x ∧ (transform t p)[i + 256]? = some y := by
  have hl : (transform t (List.replicate 257 0x00#8)).length = 257 := by
    rw [transform, transformFrom_length, List.length_replicate]
  exact ⟨List.replicate 257 0x00#8, 0, 0x00#8, 0x00#8, _, _,
    by rw [List.getElem?_replicate, if_pos (by omega)], by rw [List.getElem?_replicate, if_pos (by omega)],
    List.getElem?_eq_getElem (by omega), List.getElem?_eq_getElem (by omega)⟩

theorem witness_StepRunsDecodedCommand :
    ∃ (s : State) (x : BusTxn) (rest : List HostAct), s.host = .bus x :: rest ∧ x.kind = .wr ∧ x.width = .w32 ∧
      x.offset = 0x14#8 := ⟨withBus (.command .run) bare, .command .run, [], rfl, rfl, rfl, rfl⟩

theorem witness_BusyIgnoresWrites (o : Offset) :
    ∃ (s : State) (x : BusTxn) (rest : List HostAct), s.phase ≠ .none ∧ s.host = .bus x :: rest ∧ x.kind = .wr ∧
      x.width = .w32 ∧ x.offset = o :=
  ⟨withBus (BusTxn.mk .wr .w32 o 7#32) (reading 0#8 []), BusTxn.mk .wr .w32 o 7#32, [],
    by show Phase.hdrIn ≠ Phase.none; decide, rfl, rfl, rfl, rfl⟩

/-- The edges of the three reasons for a bus error; no offset is both an error and mapped. -/
theorem witness_BusErrorChangesNothing :
    BusWidth.w8 ≠ .w32 ∧ (0x01#8).toNat % 4 ≠ 0 ∧ (0xFF#8).toNat % 4 ≠ 0 ∧
      (0x28 ≤ (0x28#8).toNat ∧ (0x7C#8).toNat < 0x80) ∧ ¬ 0x28 ≤ (0x24#8).toNat ∧ ¬ (0x80#8).toNat < 0x80 := by decide

/-- Any 32-bit access can be the next host action, in a free and in a busy engine. -/
theorem witness_RegisterReads_RegisterWrites (k : BusKind) (o : Offset) (w : Word) :
    (∃ (s : State) (x : BusTxn) (rest : List HostAct), s.host = .bus x :: rest ∧ x.kind = k ∧ x.width = .w32 ∧
        x.offset = o ∧ x.data = w ∧ s.phase = .none) ∧
      ∃ (s : State) (x : BusTxn) (rest : List HostAct), s.host = .bus x :: rest ∧ x.kind = k ∧ x.width = .w32 ∧
        x.offset = o ∧ x.data = w ∧ s.phase ≠ .none :=
  ⟨⟨withBus (BusTxn.mk k .w32 o w) bare, BusTxn.mk k .w32 o w, [], rfl, rfl, rfl, rfl, rfl, rfl⟩,
    ⟨withBus (BusTxn.mk k .w32 o w) (reading 0#8 []), BusTxn.mk k .w32 o w, [], rfl, rfl, rfl, rfl, rfl,
      by show Phase.hdrIn ≠ Phase.none; decide⟩⟩

theorem witness_HostStatementsExpand : (HostStmt.cmd .clear).wellFormed = true := by decide

theorem witness_WaitPollsUntilFree :
    ∃ s t : State, s.host = [.wait 0] ∧ s.phase = .none ∧ t.host = [.wait 3] ∧ t.phase ≠ .none :=
  ⟨{ bare with host := [.wait 0] }, { reading 0#8 [] with host := [.wait 3] }, by decide⟩

theorem witness_ErrorStateIgnoresCommands :
    ∃ (s : State) (i : Instr), s.state = .error ∧ i ≠ .nop ∧ i ≠ .clear :=
  ⟨failed .illegalCmd 0xC#4, .illegal 0b001#3, by decide⟩

/-! ### States that keep the invariant, free and busy -/

theorem bare_inv : bare.Inv := inv_of_idle rfl (Nat.zero_le 128) rfl rfl rfl

theorem failed_inv : (failed .sinkWrite 0x6#4).Inv := by constructor <;> simp [failed, bare, State.reset, State.inRun]

theorem reading_inv (ra : List SrcAnswer) : (reading 127#8 ra).Inv := by
  constructor <;> simp [reading, bare, State.reset, State.inRun]

theorem writing_inv (rk : List SnkAnswer) : (writing 127#8 rk).Inv := by
  constructor <;> simp [writing, bare, State.reset, State.inRun]
  decide

theorem moving_inv (ra : List SrcAnswer) (rk : List SnkAnswer) : (moving 5#32 5#32 ra rk).Inv := by
  constructor <;> simp [moving, bare, State.reset, State.inRun]

/-- A mode change of a command and one of the engine. -/
theorem witness_ModeChangesOnlyAsListed :
    (∃ s t : State, s.Inv ∧ step s = .next t ∧ s.state = .idle ∧ t.state = .decoding) ∧
      ∃ s t : State, s.Inv ∧ step s = .next t ∧ s.state = .encoding ∧ t.state = .error :=
  ⟨⟨withBus (.command .run) { bare with cfg := 0x2#4, srclen := 128#32 }, _,
      inv_of_idle rfl (Nat.zero_le 128) rfl rfl rfl, rfl, rfl, rfl⟩,
    ⟨writing 127#8 [.fail], _, writing_inv _, rfl, rfl, rfl⟩⟩

theorem witness_ErrorLeftOnlyByClearOrReset :
    ∃ s t : State, s.state = .error ∧ s.phase = .none ∧ step s = .next t ∧ t.state = .idle :=
  ⟨withBus (.command .clear) (failed .sinkWrite 0x6#4), _, rfl, rfl, rfl, rfl⟩

/-- For ConfigurationWriters and EngineRegisterWriters: steps that change a register, none of them a reset. -/
theorem witness_writers :
    (∃ s t : State, step s = .next t ∧ (∀ rest, s.host ≠ .reset :: rest) ∧ t.cid ≠ s.cid) ∧
      (∃ s t : State, step s = .next t ∧ (∀ rest, s.host ≠ .reset :: rest) ∧ t.xlen ≠ s.xlen ∧ t.lastop ≠ s.lastop) ∧
      ∃ s t : State, step s = .next t ∧ (∀ rest, s.host ≠ .reset :: rest) ∧ t.hpos ≠ s.hpos ∧ t.hdr ≠ s.hdr :=
  ⟨⟨withBus (.write .cid 2#32) bare, _, rfl, by simp [withBus], by decide⟩,
    ⟨withBus (.command .run) { bare with cfg := 0x5#4, srclen := 7#32 }, _, rfl, by simp [withBus], by decide, by decide⟩,
    ⟨reading 5#8 [.byte 9#8], _, rfl, by simp [reading, bare, State.reset], by decide, by decide⟩⟩

/-- For TablesNeverChange, StreamsTakenInOrder, EngineStepIgnoresPorts and HeaderDoesNotSteer: a step that takes an answer
of each stream. -/
theorem witness_stream_steps :
    ∃ s t : State, engineStep s = .next t ∧ step s = .next t ∧ s.phase ≠ .hdrOut ∧ t.srcAnswers = [] ∧
      t.snkAnswers = [] ∧ s.srcAnswers ≠ [] ∧ s.snkAnswers ≠ [] :=
  ⟨moving 0#32 1#32 [.byte 1#8] [.ok], _, rfl, rfl, by decide, rfl, rfl, by decide, by decide⟩

/-- For SinkOnlyGrows: a step that appends a byte and one that enters Error. -/
theorem witness_SinkOnlyGrows :
    (∃ s t : State, step s = .next t ∧ sinkBytes t.history = [0x00#8]) ∧
      ∃ s t : State, step s = .next t ∧ t.state = .error ∧ s.state ≠ .error :=
  ⟨⟨writing 5#8 [.ok], _, rfl, by decide⟩, ⟨writing 5#8 [.fail], _, rfl, rfl, by decide⟩⟩

/-- For RunExitReleasesPorts: a RUN that ends by an error, one that goes on, and a primitive that ends. -/
theorem witness_RunExitReleasesPorts :
    (∃ s t : State, s.phase ≠ .none ∧ engineStep s = .next t ∧ s.lastop = 0x1#4 ∧ t.phase = .none) ∧
      (∃ s t : State, s.phase ≠ .none ∧ engineStep s = .next t ∧ s.lastop = 0x1#4 ∧ t.phase ≠ .none) ∧
      ∃ s t : State, s.phase ≠ .none ∧ engineStep s = .next t ∧ s.lastop ≠ 0x1#4 ∧ t.phase = .none :=
  ⟨⟨writing 5#8 [.fail], _, by decide, rfl, rfl, rfl⟩, ⟨writing 127#8 [.ok], _, by decide, rfl, rfl, by decide⟩,
    ⟨reading 127#8 [.byte 0#8], _, by decide, rfl, by decide, rfl⟩⟩

/-- Two states 256 bytes apart in a pass. -/
theorem witness_PayloadByteDependsOnlyOnItsPosition :
    ∃ (s s' : State) (b : Byte) (r : SnkAnswer), s.phase = .payload ∧ s'.phase = .payload ∧
      s.pos.toNat < s.xlen.toNat ∧ s'.pos.toNat < s'.xlen.toNat ∧ s.srcAnswers = [.byte b] ∧ s'.srcAnswers = [.byte b] ∧
      s.snkAnswers = [r] ∧ s'.snkAnswers = [r] ∧ s.kt1 = s'.kt1 ∧ s.kt2 = s'.kt2 ∧ s.tsel = s'.tsel ∧
      s.pos.toNat % 256 = s'.pos.toNat % 256 ∧ s.pos ≠ s'.pos :=
  ⟨moving 1#32 2#32 [.byte 1#8] [.ok], moving 257#32 258#32 [.byte 1#8] [.ok], 1#8, .ok, rfl, rfl, by decide, by decide,
    rfl, rfl, rfl, rfl, rfl, rfl, rfl, by decide, by decide⟩

theorem witness_StepKeepsInvariant : ∃ s t : State, s.Inv ∧ step s = .next t ∧ s.phase = .hdrIn ∧ t.phase = .none :=
  ⟨reading 127#8 [.byte 0#8], _, reading_inv _, rfl, rfl, rfl⟩

theorem witness_StepNeverStops : ∃ s : State, s.Inv ∧ s.phase = .payload := ⟨moving 5#32 5#32 [] [], moving_inv _ _, rfl⟩

/-! ### Whole commands -/

theorem bare_ready : bare.Ready := ⟨rfl, rfl, rfl, rfl, rfl, rfl⟩

/-- A pass of no bytes and a pass of one byte. -/
theorem witness_XformWholePass :
    (∃ s : State, s.Ready ∧ s.xlen.toNat = ([] : List Byte).length ∧ s.Answers [] 0 [] []) ∧
      ∃ s : State, s.Ready ∧ s.xlen.toNat = [7#8].length ∧ s.Answers [7#8] 1 [.eof] [] :=
  ⟨⟨bare, bare_ready, rfl, ⟨rfl, rfl⟩⟩,
    ⟨{ bare with xlen := 1#32, srcAnswers := [.byte 7#8, .eof], snkAnswers := [.ok] }, ⟨rfl, rfl, rfl, rfl, rfl, rfl⟩, rfl,
      ⟨rfl, rfl⟩⟩⟩

/-- Each stop after no byte, and after one byte. -/
theorem witness_XformStoppedPass :
    (∃ s : State, s.Ready ∧ ([] : List Byte).length < s.xlen.toNat ∧ s.Answers [] 0 [.eof] []) ∧
      (∃ s : State, s.Ready ∧ ([] : List Byte).length < s.xlen.toNat ∧ s.Answers [] 0 [.byte 7#8] [.fail]) ∧
      (∃ s : State, s.Ready ∧ [9#8].length < s.xlen.toNat ∧ s.Answers [9#8] 1 [.eof] []) ∧
      ∃ s : State, s.Ready ∧ [9#8].length < s.xlen.toNat ∧ s.Answers [9#8] 1 [.byte 7#8] [.fail] :=
  ⟨⟨{ bare with xlen := 1#32, srcAnswers := [.eof] }, ⟨rfl, rfl, rfl, rfl, rfl, rfl⟩, by decide, ⟨rfl, rfl⟩⟩,
    ⟨{ bare with xlen := 1#32, srcAnswers := [.byte 7#8], snkAnswers := [.fail] }, ⟨rfl, rfl, rfl, rfl, rfl, rfl⟩,
      by decide, ⟨rfl, rfl⟩⟩,
    ⟨{ bare with xlen := 2#32, srcAnswers := [.byte 9#8, .eof], snkAnswers := [.ok] }, ⟨rfl, rfl, rfl, rfl, rfl, rfl⟩,
      by decide, ⟨rfl, rfl⟩⟩,
    ⟨{ bare with xlen := 2#32, srcAnswers := [.byte 9#8, .byte 7#8], snkAnswers := [.ok, .fail] },
      ⟨rfl, rfl, rfl, rfl, rfl, rfl⟩, by decide, ⟨rfl, rfl⟩⟩⟩

/-- Ready to encode an empty Resource. -/
def encodeEmpty : State := { bare with cfg := 0x9#4, snkAnswers := List.replicate 128 .ok }

theorem encodeEmpty_ready : encodeEmpty.EncodeReady .resource 0#32 [] [] [] :=
  ⟨⟨rfl, rfl, rfl, rfl, rfl, rfl⟩, rfl, rfl, rfl, rfl, rfl, ⟨rfl, rfl⟩⟩

/-- For RunEncodeWholeSequence and RunEncodeAsPrimitives: ready to encode one byte as an Image at an absolute base. -/
theorem witness_RunEncode :
    ∃ s : State, s.EncodeReady .image 0x00012345#32 [7#8] [] [] :=
  ⟨{ bare with
      cfg := 0x5#4, base := 0x08012345#32, srclen := 1#32, srcAnswers := [.byte 7#8]
      snkAnswers := List.replicate 129 .ok },
    ⟨⟨rfl, rfl, rfl, rfl, rfl, rfl⟩, rfl, rfl, rfl, by decide, rfl, ⟨rfl, rfl⟩⟩⟩

/-- Ready to decode a container c whose payload has n bytes. -/
def decodeOf (c : List Byte) (n : Nat) : State :=
  { bare with
    cfg := 0x2#4, srclen := BitVec.ofNat 32 c.length, srcAnswers := c.map .byte, snkAnswers := List.replicate n .ok }

/-- For RunDecodeWholeSequence and RunDecodeAsPrimitives: any container that SRCLEN can describe, down to 128 bytes. -/
theorem witness_RunDecode (c : List Byte) (n : Nat) (h : c.length = 128 + n) (hn : c.length < 2 ^ 32) :
    (decodeOf c n).DecodeReady c n [] [] :=
  ⟨⟨rfl, rfl, rfl, rfl, rfl, rfl⟩, by simp [decodeOf], by simp [decodeOf], h,
    by show (BitVec.ofNat 32 c.length).toNat = _; rw [BitVec.toNat_ofNat]; omega,
    ⟨(List.append_nil _).symm, (List.append_nil _).symm⟩⟩

/-- The encode of an empty Resource ends, and its output is ready to be decoded. -/
theorem witness_RunRoundTrip :
    ∃ (s a t : State) (c : List Byte) (s' : State), s.EncodeReady .resource 0#32 [] [] [] ∧ exec .run s = .next a ∧
      runFor (128 + 0 + 1) a = .next t ∧ sinkBytes t.history = sinkBytes s.history ++ c ∧ s'.DecodeReady c 0 [] [] ∧
      s'.cid = s.cid ∧ s'.kt1 = s.kt1 ∧ s'.kt2 = s.kt2 := by
  let a := out (exec .run encodeEmpty)
  have h1 : runFor 128 a = _ := headerOut_whole (s := a) (rk := []) rfl rfl rfl rfl
  have h2 := fun u : State => fun hu : runFor 128 a = .next u => runFor_add hu 1
  have hl : a.lastop = 0x1#4 := rfl
  rw [if_pos hl] at h1
  refine ⟨encodeEmpty, a, _, a.hdr.bytes, decodeOf a.hdr.bytes 0, encodeEmpty_ready, rfl,
    (h2 _ h1).trans (payload_whole (rs := []) (rk := []) [] rfl rfl rfl rfl rfl rfl), ?_, ?_, rfl, rfl, rfl⟩
  · have hs : a.history = [] := rfl
    simp only [State.payloadFinish, if_pos hl, State.runComplete, State.record, payloadEvents, List.append_nil,
      sinkBytes_append, sinkBytes_headerOut_whole, hs]
    simp [sinkBytes, encodeEmpty, bare, State.reset]
  · have hb : a.hdr.bytes.length = 128 := by simp [Memory.bytes, Config.hdrSize]
    exact witness_RunDecode _ 0 hb (by omega)

/-- A header phase with one byte left, and a pass at its end that a `wait` of the smallest gap waits for. -/
theorem witness_CommandsEndWithinBound :
    (∃ s : State, s.Inv ∧ s.host = [] ∧ s.phase ≠ .none ∧ s.stepsLeft = 1 ∧ s.stepsLeft ≤ s.srcAnswers.length ∧
        s.stepsLeft ≤ s.snkAnswers.length) ∧
      ∃ s : State, s.Inv ∧ s.host = [.wait 0] ∧ s.phase = .payload ∧ s.stepsLeft = 1 ∧
        s.stepsLeft ≤ s.srcAnswers.length ∧ s.stepsLeft ≤ s.snkAnswers.length :=
  ⟨⟨{ reading 127#8 [.eof] with snkAnswers := [.ok] }, (reading_inv [.eof]).withHostSide _ _ _ _ _ _, rfl, by decide, rfl,
      by decide, by decide⟩,
    ⟨{ moving 5#32 5#32 [.eof] [.ok] with host := [.wait 0] },
      (moving_inv [.eof] [.ok]).withHostSide _ _ _ _ _ _, rfl, rfl, rfl, by decide, by decide⟩⟩

theorem witness_CommandStepBounds :
    ∃ s t : State, s.phase = .none ∧ exec .xform s = .next t ∧ t.stepsLeft = 1 ∧ t.xlen = 0#32 :=
  ⟨bare, _, rfl, rfl, rfl, rfl⟩

end Sys2Proof.Tests
end

section
/-! The little-endian header field (00_scope.md R13, 20_memory.md R57): what each byte of HDR is after a 4-byte field is
stored, inside the field and outside it. -/

namespace Sys2Proof.Machine

open Sys2Proof

/-- Byte k of a stored field is byte k of the word, counted from the least significant one (00_scope.md R13). -/
theorem Memory.read_putField_inside {m : Memory} (h : m.wf = true) {off k : Nat} (v : Word) (hn : off + 4 ≤ 128)
    (hk : k < 4) : (m.putField off v).read (off + k) = BitVec.ofNat 8 (v.toNat >>> (8 * k)) := by
  rw [Memory.putField, Memory.read_memWrite h off 4 v.toNat hn, if_pos (by omega), Nat.add_sub_cancel_left]

/-- The frame of a stored field: a byte outside its four is unchanged. -/
theorem Memory.read_putField_outside {m : Memory} (h : m.wf = true) {off a : Nat} (v : Word) (hn : off + 4 ≤ 128)
    (ha : a < off ∨ off + 4 ≤ a) : (m.putField off v).read a = m.read a := by
  rw [Memory.putField, Memory.read_memWrite h off 4 v.toNat hn, if_neg (by omega)]

/-- Settles O16: the bytes inside and outside the stored field by the two laws above; the read back and the canonical
form by `Memory.field_putField_same` and `Memory.wf_putField`. -/
theorem headerFieldsAreLittleEndian : Obligations.HeaderFieldsAreLittleEndian := by
  intro m o v h hn
  refine ⟨fun k hk => ?_, fun a ha => Memory.read_putField_outside h v hn ha, Memory.field_putField_same h o v hn,
    Memory.wf_putField h o v hn⟩
  rw [Memory.read_putField_inside h v hn hk, BitVec.toNat_ofNat]

end Sys2Proof.Machine
end

section
/-! The engine's invariant along every step (10_state.md R23, 42_control.md R138): each move of the machine keeps it, and
the reset state meets it. -/

namespace Sys2Proof.Machine

open Sys2Proof

/-- Each move of the machine keeps the invariant: an engine or a command move by its own law, and every other one leaves
the engine's registers alone, sets them to their reset values, or is a register write. -/
theorem StepMove.keeps_inv {s t : State} (m : StepMove s t) (h : s.Inv) : t.Inv := by
  have planned : ∀ rest : List HostAct, State.Inv { s with host := rest } := fun rest =>
    h.withHostSide s.srcStat s.snkStat s.srcAnswers s.snkAnswers rest s.history
  cases m with
  | engine _ hm => exact hm.keeps_inv h
  | tick _ hm => exact hm.keeps_inv (planned _)
  | busError => exact (planned _).record _
  | busRead => exact (planned _).record _
  | busWrite => exact writeReg_keeps_inv ((planned _).record _) _ _
  | command _ _ _ hm => exact exec_keeps_inv ((planned _).record _) hm
  | ports => exact h.withHostSide _ _ _ _ _ _
  | answerSource => exact h.withHostSide _ _ _ _ _ _
  | answerSink => exact h.withHostSide _ _ _ _ _ _
  | reset => exact (resetEngine_inv _).record _
  | wait => exact pollStep_keeps_inv (planned _) _

/-- Settles O50: a step is one of the machine's moves, and each move keeps the invariant. -/
theorem stepKeepsInvariant : Obligations.StepKeepsInvariant := fun _ _ h hs => (step_move hs).keeps_inv h

/-- Settles O49: at reset the engine is Idle and free, with no error and an empty canonical HDR. -/
theorem invariantAtReset : Obligations.InvariantAtReset := inv_of_idle rfl (Nat.zero_le 128) rfl rfl rfl

end Sys2Proof.Machine
end

section
/-! The register map (20_memory.md R51, R52): each register decodes from its own offset, and from no other. -/

namespace Sys2Proof

/-- Header word k stands at 0x80 + 4k (10_state.md R39). -/
theorem Reg.hdr_offset_toNat (k : BitVec 5) : (Reg.hdr k).offset.toNat = 0x80 + 4 * k.toNat := by
  revert k; decide

/-- The mapped offsets are 4-aligned and outside 0x28 to 0x7C (20_memory.md R51). -/
theorem Reg.offset_mapped (r : Reg) : r.offset.toNat % 4 = 0 ∧ (r.offset.toNat < 0x28 ∨ 0x80 ≤ r.offset.toNat) := by
  cases r
  case hdr k => rw [Reg.hdr_offset_toNat]; omega
  all_goals decide

/-- Each register decodes from its own offset. -/
theorem Reg.decode_offset (r : Reg) : Reg.decode r.offset = .ok r := by
  cases r
  case hdr k => revert k; decide
  all_goals rfl

/-- An offset with its top bit set and 4-aligned is that of the header word its middle bits name. -/
theorem Reg.hdr_offset_of_bits {o : Offset} (hlow : o.extractLsb' 0 2 = 0#2) (htop : o.extractLsb' 7 1 = 1#1) :
    (Reg.hdr (o.extractLsb' 2 5)).offset = o := by
  revert o; decide

/-- A register decodes from its own offset only. -/
theorem Reg.offset_of_decode {o : Offset} {r : Reg} (h : Reg.decode o = .ok r) : r.offset = o := by
  unfold Reg.decode at h
  split_ifs at h with hlow htop
  · cases h
    exact Reg.hdr_offset_of_bits (not_not.1 hlow) htop
  · split at h <;> cases h <;> exact BitVec.eq_of_toNat_eq (Eq.symm ‹_›)

/-- A 4-aligned offset from 0x80 on is that of a header word. -/
theorem Reg.decode_header {o : Offset} {k : Nat} (hk : k < 32) (ho : o.toNat = 0x80 + 4 * k) :
    Reg.decode o = .ok (.hdr (BitVec.ofNat 5 k)) := by
  have hoff : o = (Reg.hdr (BitVec.ofNat 5 k)).offset := by
    apply BitVec.eq_of_toNat_eq
    rw [Reg.hdr_offset_toNat, BitVec.toNat_ofNat, ho]
    omega
  rw [hoff, Reg.decode_offset]

/-- A misaligned or unmapped offset decodes to no register (20_memory.md R52). -/
theorem Reg.decode_error {o : Offset} (h : o.toNat % 4 ≠ 0 ∨ (0x28 ≤ o.toNat ∧ o.toNat < 0x80)) :
    ∃ e, Reg.decode o = .error e := by
  cases hd : Reg.decode o with
  | error e => exact ⟨e, rfl⟩
  | ok r =>
    have hm := r.offset_mapped
    rw [Reg.offset_of_decode hd] at hm
    omega

/-- A 32-bit transaction reaches the register at its offset (20_memory.md R52). -/
theorem BusTxn.target_word {x : BusTxn} (hw : x.width = .w32) : x.target = Reg.decode x.offset := by
  rw [BusTxn.target, hw]

/-- A transaction that reaches a register is 32 bits wide and at that register's offset (20_memory.md R52). -/
theorem BusTxn.of_target {x : BusTxn} {r : Reg} (h : x.target = .ok r) : x.width = .w32 ∧ x.offset = r.offset := by
  unfold BusTxn.target at h
  cases hw : x.width <;> rw [hw] at h
  case w32 => exact ⟨rfl, (Reg.offset_of_decode h).symm⟩
  all_goals cases h

end Sys2Proof
end

section
/-! A register access as the next host action (10_state.md R42, R43): one law for a bus error, for a read, for a write to a
register and for a command, and from them what an access does at each offset. -/

namespace Sys2Proof.Machine

open Sys2Proof

/-- An access that reaches no register is answered with a bus error and changes nothing else (20_memory.md R52). -/
theorem step_busError {s : State} {x : BusTxn} {rest : List HostAct} {e : BusReject} (hh : s.host = .bus x :: rest)
    (ht : x.target = .error e) :
    step s = .next { s with host := rest, history := s.history ++ [.access x .busError] } := by
  rw [step_of_host_cons hh]
  simp only [hostStep, busAccess, ht]
  rfl

/-- A read is answered with the register's value and changes nothing else (10_state.md R43). -/
theorem step_busRead {s : State} {x : BusTxn} {rest : List HostAct} {r : Reg} (hh : s.host = .bus x :: rest)
    (hk : x.kind = .rd) (ht : x.target = .ok r) :
    step s = .next { s with host := rest, history := s.history ++ [.access x (.data (s.readReg r))] } := by
  rw [step_of_host_cons hh]
  simp only [hostStep, busAccess, ht, hk]
  rfl

/-- A write to a register is recorded and then carried out (10_state.md R42; log 4). -/
theorem step_busWrite {s : State} {x : BusTxn} {rest : List HostAct} {r : Reg} (hh : s.host = .bus x :: rest)
    (hk : x.kind = .wr) (ht : x.target = .ok r) :
    step s = busWrite r x.data { s with host := rest, history := s.history ++ [.access x .done] } := by
  rw [step_of_host_cons hh]
  simp only [hostStep, busAccess, ht, hk]
  rfl

/-- A register other than CMD takes a write by `writeReg`. -/
theorem busWrite_of_ne_cmd {r : Reg} (hr : r ≠ .cmd) (w : Word) (s : State) :
    busWrite r w s = .next (s.writeReg r w) := by
  cases r
  case cmd => exact absurd rfl hr
  all_goals rfl

/-- While busy no register takes a write (42_control.md R127). -/
theorem State.writeReg_of_busy {s : State} (hp : s.phase ≠ .none) (r : Reg) (w : Word) : s.writeReg r w = s := by
  have hb := s.busy_eq_true_iff.2 hp
  cases r <;> simp only [State.writeReg, hb, if_true]

/-- What a free engine's configuration registers hold after a write (10_state.md R42). -/
theorem State.writeReg_of_free {s : State} (hp : s.phase = .none) (w : Word) :
    s.writeReg .cfg w = { s with cfg := w.extractLsb' 0 4 } ∧ s.writeReg .base w = { s with base := w } ∧
      s.writeReg .cid w = { s with cid := w } ∧ s.writeReg .srclen w = { s with srclen := w } ∧
      s.writeReg .xlen w = { s with xlen := w } := by
  simp only [State.writeReg, s.busy_eq_false_iff.2 hp, Bool.false_eq_true, if_false, and_self]

/-- A header word reads as its four bytes, the least significant first (10_state.md R39, R43). -/
theorem State.readReg_hdr (s : State) {k : Nat} (hk : k < 32) :
    s.readReg (.hdr (BitVec.ofNat 5 k)) = BitVec.ofNat 32
      ((s.hdr.read (4 * k)).toNat + (s.hdr.read (4 * k + 1)).toNat * 2 ^ 8 +
        (s.hdr.read (4 * k + 2)).toNat * 2 ^ 16 + (s.hdr.read (4 * k + 3)).toNat * 2 ^ 24) := by
  have hword : (BitVec.ofNat 5 k).toNat = k := by rw [BitVec.toNat_ofNat]; omega
  simp only [State.readReg, Memory.field, Memory.memRead, hword, Nat.add_zero, Nat.zero_add, Nat.pow_zero, Nat.mul_one,
    Nat.pow_one, Nat.reducePow]

/-- IDX is POS mod 256 (10_state.md R43). -/
theorem State.readReg_idx (s : State) : s.readReg .idx = BitVec.ofNat 32 (s.pos.toNat % 256) := by
  apply BitVec.eq_of_toNat_eq
  simp [State.readReg]

/-- HPOS is read with its value in the low byte (10_state.md R43). -/
theorem State.readReg_hpos (s : State) : s.readReg .hpos = BitVec.ofNat 32 s.hpos.toNat := by
  apply BitVec.eq_of_toNat_eq
  simp [State.readReg]

/-- Settles O31: the register that each offset decodes to, then `step_busRead` with the register's value; an offset that
decodes to none is `step_busError`. -/
theorem registerReads : Obligations.RegisterReads := by
  intro s x rest hh hk hw answers
  have ht := BusTxn.target_word hw
  have reads : ∀ {o : Offset} (r : Reg), Reg.decode o = .ok r → x.offset = o → answers (.data (s.readReg r)) :=
    fun r hd ho => step_busRead hh hk (by rw [ht, ho, hd])
  refine ⟨reads .cfg rfl, reads .base rfl, reads .cid rfl, reads .srclen rfl, reads .xlen rfl, reads .cmd rfl,
    reads .status rfl, reads .pos rfl, fun ho => ?_, fun ho => ?_, fun k hlt ho => ?_, fun ho => ?_⟩
  · rw [← s.readReg_idx]
    exact reads .idx rfl ho
  · rw [← s.readReg_hpos]
    exact reads .hpos rfl ho
  · rw [← s.readReg_hdr hlt]
    exact reads _ (Reg.decode_header hlt ho) rfl
  · obtain ⟨e, he⟩ := Reg.decode_error ho
    exact step_busError hh (ht.trans he)

/-- Settles O32: the register that each offset decodes to, then `step_busWrite`; a configuration register takes the word
when the engine is free, CMD starts its command, every other register ignores it. -/
theorem registerWrites : Obligations.RegisterWrites := by
  intro s x rest hh hk hw done
  have ht := BusTxn.target_word hw
  have writes : ∀ {o : Offset} (r : Reg), Reg.decode o = .ok r → x.offset = o → step s = busWrite r x.data done :=
    fun r hd ho => step_busWrite hh hk (by rw [ht, ho, hd])
  have free := fun hp : s.phase = .none => State.writeReg_of_free (s := done) hp x.data
  have busy : ∀ {o : Offset} (r : Reg), s.phase ≠ .none → r ≠ .cmd → Reg.decode o = .ok r → x.offset = o →
      step s = .next done := fun r hp hr hd ho => by
    rw [writes r hd ho, busWrite_of_ne_cmd hr, State.writeReg_of_busy (s := done) hp]
  refine ⟨fun hp ho => ?_, fun hp ho => ?_, fun hp ho => ?_, fun hp ho => ?_, fun hp ho => ?_, fun hp ho => ?_,
    writes .cmd rfl, fun ho => ?_, fun hal ho => ?_, fun ho => ?_⟩
  · simp only [List.mem_cons, List.not_mem_nil, or_false] at ho
    rcases ho with ho | ho | ho | ho | ho
    · exact busy .cfg hp (by decide) rfl ho
    · exact busy .base hp (by decide) rfl ho
    · exact busy .cid hp (by decide) rfl ho
    · exact busy .srclen hp (by decide) rfl ho
    · exact busy .xlen hp (by decide) rfl ho
  · obtain ⟨hcfg, -⟩ := free hp
    rw [writes .cfg rfl ho, ← hcfg]; rfl
  · obtain ⟨-, hbase, -⟩ := free hp
    rw [writes .base rfl ho, ← hbase]; rfl
  · obtain ⟨-, -, hcid, -⟩ := free hp
    rw [writes .cid rfl ho, ← hcid]; rfl
  · obtain ⟨-, -, -, hsrclen, -⟩ := free hp
    rw [writes .srclen rfl ho, ← hsrclen]; rfl
  · obtain ⟨-, -, -, -, hxlen⟩ := free hp
    rw [writes .xlen rfl ho, ← hxlen]; rfl
  · simp only [List.mem_cons, List.not_mem_nil, or_false] at ho
    rcases ho with ho | ho | ho | ho
    · exact writes .status rfl ho
    · exact writes .pos rfl ho
    · exact writes .idx rfl ho
    · exact writes .hpos rfl ho
  · have hlt := x.offset.isLt
    exact writes _ (Reg.decode_header (k := (x.offset.toNat - 0x80) / 4) (by omega) (by omega)) rfl
  · obtain ⟨e, he⟩ := Reg.decode_error ho
    exact step_busError hh (ht.trans he)

end Sys2Proof.Machine
end

section
/-! The STATUS word (10_state.md R30): each of its fields, and each reserved gap, as bits of the word. -/

namespace Sys2Proof.Machine

open Sys2Proof

/-- The flag BUSY as a bit (10_state.md R32). -/
theorem State.ofBool_busy (s : State) : BitVec.ofBool s.busy = if s.phase = .none then 0#1 else 1#1 := by
  cases hp : s.phase <;> simp [State.busy, hp]

/-- A one-bit flag of the STATUS word. -/
theorem ofBool_eq_ite (b : Bool) : BitVec.ofBool b = if b then 1#1 else 0#1 := by
  cases b <;> rfl

/-- Bits of the STATUS word as bits of the concatenation of its fields, whose width is the sum of theirs. -/
theorem State.extractLsb'_statusWord (s : State) (start len : Nat) :
    s.statusWord.extractLsb' start len =
      (0#8 ++ s.lastop ++ 0#2 ++ s.phase.code ++ 0#4 ++ s.err.code ++ 0#2 ++ BitVec.ofBool s.wsize ++
        BitVec.ofBool s.hdrv ++ BitVec.ofBool s.tsel ++ BitVec.ofBool s.busy ++ s.state.code).extractLsb' start len :=
  rfl

/-- The fields of the STATUS word, from bit 0 up, with the reserved gaps (10_state.md R30): the word is their
concatenation, so that each one is cut out by passing over the fields below it. -/
theorem State.statusWord_fields (s : State) :
    s.statusWord.extractLsb' 0 2 = s.state.code ∧ s.statusWord.extractLsb' 2 1 = BitVec.ofBool s.busy ∧
      s.statusWord.extractLsb' 3 1 = BitVec.ofBool s.tsel ∧ s.statusWord.extractLsb' 4 1 = BitVec.ofBool s.hdrv ∧
      s.statusWord.extractLsb' 5 1 = BitVec.ofBool s.wsize ∧ s.statusWord.extractLsb' 6 2 = 0#2 ∧
      s.statusWord.extractLsb' 8 4 = s.err.code ∧ s.statusWord.extractLsb' 12 4 = 0#4 ∧
      s.statusWord.extractLsb' 16 2 = s.phase.code ∧ s.statusWord.extractLsb' 18 2 = 0#2 ∧
      s.statusWord.extractLsb' 20 4 = s.lastop ∧ s.statusWord.extractLsb' 24 8 = 0#8 := by
  simp (disch := decide) only [State.extractLsb'_statusWord, BitVec.extractLsb'_append_eq_of_le,
    BitVec.extractLsb'_append_eq_of_add_le, BitVec.extractLsb'_eq_self, Nat.reduceSub, and_self]

/-- Settles O33: `State.statusWord_fields`, with each code written out case by case. -/
theorem statusWordLayout : Obligations.StatusWordLayout := by
  intro s
  obtain ⟨hstate, hbusy, htsel, hhdrv, hwsize, hgap6, herr, hgap12, hphase, hgap18, hlastop, hgap24⟩ :=
    s.statusWord_fields
  refine ⟨?_, hbusy.trans s.ofBool_busy, htsel.trans (ofBool_eq_ite _), hhdrv.trans (ofBool_eq_ite _),
    hwsize.trans (ofBool_eq_ite _), hgap6, ?_, hgap12, ?_, hgap18, hlastop, hgap24⟩
  · rw [hstate]; cases s.state <;> rfl
  · rw [herr]; cases s.err <;> rfl
  · rw [hphase]; cases s.phase <;> rfl

end Sys2Proof.Machine
end

section
/-! Reset (10_state.md R45): the register values, which no field of the host's side can change. -/

namespace Sys2Proof.Machine

open Sys2Proof

/-- The reset state holds the value of R45 in every register. -/
theorem State.reset_hasResetValues : State.reset.hasResetValues :=
  ⟨rfl, rfl, rfl, rfl, rfl, rfl, rfl, rfl, rfl, rfl, rfl, rfl, by decide, rfl, rfl, fun k => Memory.read_nil k⟩

/-- The reset input leaves in every register what `State.reset` holds, whatever is recorded of it. -/
theorem State.resetEngine_record_hasResetValues (s : State) (es : List Event) :
    (s.resetEngine.record es).hasResetValues :=
  State.reset_hasResetValues

/-- Settles O1: the reset values hold of `State.reset`, and the reset input copies it but for the tables and the host's
side. -/
theorem resetValues : Obligations.ResetValues := by
  refine ⟨State.reset_hasResetValues, fun s hr => ?_⟩
  obtain ⟨rest, hh⟩ := hr
  exact ⟨_, step_of_host_cons hh, State.resetEngine_record_hasResetValues _ _, rfl, rfl⟩

end Sys2Proof.Machine
end

section
/-! Frames: what a move of the engine, an accepted command and a register write leave unchanged. Each frame is one
equation: the new state is the old one with only the listed fields replaced. -/

namespace Sys2Proof.Machine

open Sys2Proof

/-- The byte step of HDR_IN writes HDR, HPOS and, with the last byte, HDRV, WSIZE and PHASE (40_header_codec.md R98). -/
theorem State.headerByteIn_frame (s : State) (b : Byte) :
    s.headerByteIn b =
      { s with
        hdr := (s.headerByteIn b).hdr, hpos := (s.headerByteIn b).hpos, hdrv := (s.headerByteIn b).hdrv
        wsize := (s.headerByteIn b).wsize, phase := (s.headerByteIn b).phase } := by
  unfold State.headerByteIn
  dsimp only
  split_ifs <;> rfl

/-- The byte step of HDR_OUT writes HPOS and, with the last byte, POS and PHASE (40_header_codec.md R100). -/
theorem State.headerByteOut_frame (s : State) :
    s.headerByteOut =
      { s with hpos := s.headerByteOut.hpos, pos := s.headerByteOut.pos, phase := s.headerByteOut.phase } := by
  unfold State.headerByteOut
  dsimp only
  split_ifs <;> rfl

/-- The finish step of a pass writes STATE, PHASE and the history (41_keystream.md R118). -/
theorem State.payloadFinish_frame (s : State) :
    s.payloadFinish =
      { s with state := s.payloadFinish.state, phase := .none, history := s.payloadFinish.history } := by
  unfold State.payloadFinish
  split_ifs <;> rfl

/-- What no engine move writes: the configuration registers, TSEL, LASTOP, the tables, the ports and the host's plan
(10_state.md R22, R34, R36, R40, R41). -/
theorem EngineMove.frame {s t : State} (m : EngineMove s t) :
    t = { s with
      state := t.state, hdrv := t.hdrv, wsize := t.wsize, err := t.err, phase := t.phase, pos := t.pos, hpos := t.hpos
      hdr := t.hdr, srcAnswers := t.srcAnswers, snkAnswers := t.snkAnswers, history := t.history } := by
  cases m with
  | headerIn => rw [State.headerByteIn_frame]
  | headerOut => rw [State.headerByteOut_frame]
  | finish => rw [State.payloadFinish_frame]
  | _ => rfl

/-- What no accepted command writes: the configuration registers but XLEN, LASTOP once it is set, the tables and the
host's side but the history (10_state.md R22, R40, R41). -/
theorem AcceptedMove.frame {a t : State} {i : Instr} (m : AcceptedMove a i t) :
    t = { a with
      xlen := t.xlen, state := t.state, tsel := t.tsel, hdrv := t.hdrv, wsize := t.wsize, err := t.err, phase := t.phase
      pos := t.pos, hpos := t.hpos, hdr := t.hdr, history := t.history } := by
  cases m <;> rfl

/-- What no command writes, accepted or ignored (10_state.md R22, R40, R41). -/
theorem exec_frame {i : Instr} {s t : State} (h : exec i s = .next t) :
    t = { s with
      xlen := t.xlen, state := t.state, tsel := t.tsel, hdrv := t.hdrv, wsize := t.wsize, err := t.err, phase := t.phase
      lastop := t.lastop, pos := t.pos, hpos := t.hpos, hdr := t.hdr, history := t.history } := by
  rcases exec_move h with ⟨-, rfl⟩ | ⟨-, m⟩
  · rfl
  · rw [m.frame]

/-- A register write changes the configuration registers only (10_state.md R42). -/
theorem State.writeReg_frame (s : State) (r : Reg) (w : Word) :
    s.writeReg r w =
      { s with
        cfg := (s.writeReg r w).cfg, base := (s.writeReg r w).base, cid := (s.writeReg r w).cid
        srclen := (s.writeReg r w).srclen, xlen := (s.writeReg r w).xlen } := by
  cases r <;> simp only [State.writeReg]
  case cfg | base | cid | srclen | xlen => split_ifs <;> rfl

/-- A poll writes the host's plan and the history only (30_encoding.md R86). -/
theorem pollStep_frame (gap : Nat) (s : State) :
    pollStep gap s = { s with host := (pollStep gap s).host, history := (pollStep gap s).history } := by
  unfold pollStep
  dsimp only
  split_ifs <;> rfl

/-- Settles O42: no move writes a table, by its frame; the reset input copies them. -/
theorem tablesNeverChange : Obligations.TablesNeverChange := by
  intro s t h
  cases step_move h with
  | engine _ m => rw [m.frame]; exact ⟨rfl, rfl⟩
  | tick _ m => rw [m.frame]; exact ⟨rfl, rfl⟩
  | busWrite => rw [State.writeReg_frame]; exact ⟨rfl, rfl⟩
  | command _ _ _ hx => rw [exec_frame hx]; exact ⟨rfl, rfl⟩
  | wait => rw [pollStep_frame]; exact ⟨rfl, rfl⟩
  | _ => exact ⟨rfl, rfl⟩

end Sys2Proof.Machine
end

section
/-! Who writes what (10_state.md R22, R34 to R39, R46): the commands and the phases that may change a register, and from
them the steps that may. -/

namespace Sys2Proof.Machine

open Sys2Proof

/-- Which commands may change which register, once accepted (10_state.md R22, R34 to R39, R46). -/
theorem AcceptedMove.writers {a t : State} {i : Instr} (m : AcceptedMove a i t) :
    (t.xlen ≠ a.xlen → i = .run) ∧ (t.tsel ≠ a.tsel → i = .selTable ∨ i = .run) ∧
      (t.hdr ≠ a.hdr ∨ t.hdrv ≠ a.hdrv → i = .buildHdr ∨ i = .readHdr ∨ i = .run) ∧
      (t.wsize ≠ a.wsize → i = .readHdr ∨ i = .run) ∧
      (t.hpos ≠ a.hpos → i = .readHdr ∨ i = .emitHdr ∨ i = .run) ∧ (t.pos ≠ a.pos → i = .xform ∨ i = .run) := by
  cases m <;> simp [State.headerReadStart]

/-- Which commands may change which register, accepted or ignored; a LASTOP that changes becomes the command's OP. -/
theorem exec_writers {i : Instr} {s t : State} (h : exec i s = .next t) :
    (t.lastop ≠ s.lastop → t.lastop = i.op) ∧ (t.xlen ≠ s.xlen → i = .run) ∧
      (t.tsel ≠ s.tsel → i = .selTable ∨ i = .run) ∧
      (t.hdr ≠ s.hdr ∨ t.hdrv ≠ s.hdrv → i = .buildHdr ∨ i = .readHdr ∨ i = .run) ∧
      (t.wsize ≠ s.wsize → i = .readHdr ∨ i = .run) ∧
      (t.hpos ≠ s.hpos → i = .readHdr ∨ i = .emitHdr ∨ i = .run) ∧ (t.pos ≠ s.pos → i = .xform ∨ i = .run) := by
  rcases exec_move h with ⟨-, rfl⟩ | ⟨-, m⟩
  · simp
  · exact ⟨fun _ => by rw [m.frame], m.writers⟩

/-- In which phases the engine may change which register (10_state.md R35, R37 to R39, R46). -/
theorem EngineMove.writers {s t : State} (m : EngineMove s t) :
    (t.hdr ≠ s.hdr ∨ t.hdrv ≠ s.hdrv → s.phase = .hdrIn) ∧ (t.wsize ≠ s.wsize → s.phase = .hdrIn) ∧
      (t.hpos ≠ s.hpos → s.phase = .hdrIn ∨ s.phase = .hdrOut) ∧
      (t.pos ≠ s.pos → s.phase = .hdrOut ∨ s.phase = .payload) := by
  cases m with
  | headerIn hp => rw [State.headerByteIn_frame]; simp [hp]
  | headerOut hp => rw [State.headerByteOut_frame]; simp [hp]
  | payloadOk hp => simp [hp]
  | finish => rw [State.payloadFinish_frame]; simp
  | _ => simp

/-- Which write may change which configuration register, and the value it then holds (10_state.md R42). -/
theorem State.writeReg_writers (s : State) (r : Reg) (w : Word) :
    ((s.writeReg r w).cfg ≠ s.cfg → r = .cfg ∧ (s.writeReg r w).cfg = w.extractLsb' 0 4) ∧
      ((s.writeReg r w).base ≠ s.base → r = .base ∧ (s.writeReg r w).base = w) ∧
      ((s.writeReg r w).cid ≠ s.cid → r = .cid ∧ (s.writeReg r w).cid = w) ∧
      ((s.writeReg r w).srclen ≠ s.srclen → r = .srclen ∧ (s.writeReg r w).srclen = w) ∧
      ((s.writeReg r w).xlen ≠ s.xlen → r = .xlen ∧ (s.writeReg r w).xlen = w) := by
  cases r <;> simp only [State.writeReg]
  case cfg | base | cid | srclen | xlen => split_ifs <;> simp
  all_goals simp

/-- A write that reaches a register is a write at the register's offset. -/
theorem State.nextWrites_of_target {s : State} {x : BusTxn} {rest : List HostAct} {r : Reg}
    (hh : s.host = .bus x :: rest) (hk : x.kind = .wr) (ht : x.target = .ok r) : s.nextWrites r.offset x.data := by
  obtain ⟨hw, ho⟩ := BusTxn.of_target ht
  exact ⟨x, rest, hh, hk, hw, ho, rfl⟩

/-- A write that reaches CMD is a command. -/
theorem State.nextCommands_of_target {s : State} {x : BusTxn} {rest : List HostAct} (hh : s.host = .bus x :: rest)
    (hk : x.kind = .wr) (ht : x.target = .ok .cmd) : s.nextCommands (decode x.data) :=
  ⟨x.data, State.nextWrites_of_target hh hk ht, rfl⟩

/-- Settles O40: a configuration register changes only in a register write, by `State.writeReg_writers`, and XLEN also in
the command RUN; the frames say so of every other move. -/
theorem configurationWriters : Obligations.ConfigurationWriters := by
  intro s t h hr
  cases step_move h with
  | engine _ m => rw [m.frame]; simp
  | tick _ m => rw [m.frame]; simp
  | @busWrite rest x r hh ht hk hc =>
    have hw := State.nextWrites_of_target hh hk ht
    obtain ⟨hcfg, hbase, hcid, hsrclen, hxlen⟩ :=
      State.writeReg_writers (State.record { s with host := rest } [.access x .done]) r x.data
    refine ⟨fun hne => ?_, fun hne => ?_, fun hne => ?_, fun hne => ?_, fun hne => .inl ?_⟩
    · obtain ⟨rfl, hv⟩ := hcfg hne
      exact ⟨x.data, hw, hv⟩
    · obtain ⟨rfl, hv⟩ := hbase hne
      rw [hv]; exact hw
    · obtain ⟨rfl, hv⟩ := hcid hne
      rw [hv]; exact hw
    · obtain ⟨rfl, hv⟩ := hsrclen hne
      rw [hv]; exact hw
    · obtain ⟨rfl, hv⟩ := hxlen hne
      rw [hv]; exact hw
  | command hh ht hk hx =>
    have hcmd := State.nextCommands_of_target hh hk ht
    obtain ⟨-, hxlen, -⟩ := exec_writers hx
    have hf := exec_frame hx
    refine ⟨fun hne => absurd (congrArg State.cfg hf) hne, fun hne => absurd (congrArg State.base hf) hne,
      fun hne => absurd (congrArg State.cid hf) hne, fun hne => absurd (congrArg State.srclen hf) hne,
      fun hne => .inr ?_⟩
    rw [hxlen hne] at hcmd
    exact hcmd
  | reset hh => exact absurd ⟨_, hh⟩ hr
  | wait => rw [pollStep_frame]; simp
  | _ => simp

/-- Where the engine's registers can change: in an engine's turn, in a command or in a reset. Any other step writes only the
configuration registers and the host's side. -/
theorem StepMove.engine_or_command_or_reset_or_host {s t : State} (m : StepMove s t) :
    (s.nextIsEngine ∧ ∃ rest, EngineMove { s with host := rest } t) ∨
      (∃ i rest es, s.nextCommands i ∧ exec i (State.record { s with host := rest } es) = .next t) ∨
      s.nextResets ∨
      t = { s with
        cfg := t.cfg, base := t.base, cid := t.cid, srclen := t.srclen, xlen := t.xlen, srcStat := t.srcStat
        snkStat := t.snkStat, srcAnswers := t.srcAnswers, snkAnswers := t.snkAnswers, host := t.host
        history := t.history } := by
  cases m with
  | engine hh hm => exact .inl ⟨.inl hh, s.host, hm⟩
  | tick hh hm => exact .inl ⟨.inr ⟨_, hh⟩, _, hm⟩
  | command hh ht hk hx => exact .inr (.inl ⟨_, _, _, State.nextCommands_of_target hh hk ht, hx⟩)
  | reset hh => exact .inr (.inr (.inl ⟨_, hh⟩))
  | busWrite => exact .inr (.inr (.inr (by rw [State.writeReg_frame]; rfl)))
  | wait => exact .inr (.inr (.inr (by rw [pollStep_frame])))
  | _ => exact .inr (.inr (.inr rfl))

/-- Settles O41: an engine's turn by `EngineMove.writers`, a command by `exec_writers`, and every other step but reset
leaves these registers alone. -/
theorem engineRegisterWriters : Obligations.EngineRegisterWriters := by
  intro s t h hr
  rcases (step_move h).engine_or_command_or_reset_or_host with ⟨hn, rest, m⟩ | ⟨i, rest, es, hc, hx⟩ | hreset | hf
  · obtain ⟨hhdr, hwsize, hhpos, hpos⟩ := m.writers
    refine ⟨fun hne => absurd (congrArg State.tsel m.frame) hne, fun hne => absurd (congrArg State.lastop m.frame) hne,
      fun hne => ?_, fun hne => ?_, fun hne => ?_, fun hne => ?_⟩
    · exact .inr (.inr (.inr ⟨hn, hhdr hne⟩))
    · exact .inr (.inr ⟨hn, hwsize hne⟩)
    · exact .inr (.inr (.inr ⟨hn, hhpos hne⟩))
    · exact .inr (.inr ⟨hn, hpos hne⟩)
  · obtain ⟨hlastop, -, htsel, hhdr, hwsize, hhpos, hpos⟩ := exec_writers hx
    refine ⟨fun hne => ?_, fun hne => ⟨i, hc, hlastop hne⟩, fun hne => ?_, fun hne => ?_, fun hne => ?_, fun hne => ?_⟩
    · rcases htsel hne with rfl | rfl <;> simp [hc]
    · rcases hhdr hne with rfl | rfl | rfl <;> simp [hc]
    · rcases hwsize hne with rfl | rfl <;> simp [hc]
    · rcases hhpos hne with rfl | rfl | rfl <;> simp [hc]
    · rcases hpos hne with rfl | rfl <;> simp [hc]
  · exact absurd hreset hr
  · rw [hf]
    simp

end Sys2Proof.Machine
end

section
/-! The port inputs during a phase (10_state.md R41): every operation of an engine step does the same whatever the two
inputs say. -/

namespace Sys2Proof.Machine

open Sys2Proof

/-- The state with other port inputs. -/
def State.withPorts (s : State) (p q : PortStat) : State := { s with srcStat := p, snkStat := q }

@[simp] theorem State.withPorts_phase (s : State) (p q : PortStat) : (s.withPorts p q).phase = s.phase := rfl
@[simp] theorem State.withPorts_xlen (s : State) (p q : PortStat) : (s.withPorts p q).xlen = s.xlen := rfl
@[simp] theorem State.withPorts_pos (s : State) (p q : PortStat) : (s.withPorts p q).pos = s.pos := rfl
@[simp] theorem State.withPorts_hpos (s : State) (p q : PortStat) : (s.withPorts p q).hpos = s.hpos := rfl
@[simp] theorem State.withPorts_hdr (s : State) (p q : PortStat) : (s.withPorts p q).hdr = s.hdr := rfl
@[simp] theorem State.payloadByte_withPorts (s : State) (p q : PortStat) (b : Byte) :
    (s.withPorts p q).payloadByte b = s.payloadByte b := rfl

theorem State.srcRead_withPorts (s : State) (p q : PortStat) :
    (s.withPorts p q).srcRead = s.srcRead.map fun x => (x.1, x.2.withPorts p q) := by
  cases ha : s.srcAnswers with
  | nil => rw [State.srcRead_nil ha, State.srcRead_nil (s := s.withPorts p q) ha]; rfl
  | cons r rest => rw [State.srcRead_cons ha, State.srcRead_cons (s := s.withPorts p q) ha]; rfl

theorem State.snkWrite_withPorts (s : State) (p q : PortStat) (b : Byte) :
    (s.withPorts p q).snkWrite b = (s.snkWrite b).map fun x => (x.1, x.2.withPorts p q) := by
  cases ha : s.snkAnswers with
  | nil => rw [State.snkWrite_nil ha, State.snkWrite_nil (s := s.withPorts p q) ha]; rfl
  | cons r rest => rw [State.snkWrite_cons ha, State.snkWrite_cons (s := s.withPorts p q) ha]; rfl

/-- An error raised by the engine samples no port: it releases both (60_exceptions.md R150). -/
theorem State.raise_withPorts (s : State) (p q : PortStat) (e : ErrCode) :
    (s.withPorts p q).raise false e = (s.raise false e).withPorts p q := rfl

theorem State.headerByteIn_withPorts (s : State) (p q : PortStat) (b : Byte) :
    (s.withPorts p q).headerByteIn b = (s.headerByteIn b).withPorts p q := by
  unfold State.headerByteIn State.withPorts
  dsimp only
  split_ifs <;> rfl

theorem State.headerByteOut_withPorts (s : State) (p q : PortStat) :
    (s.withPorts p q).headerByteOut = s.headerByteOut.withPorts p q := by
  unfold State.headerByteOut State.withPorts
  dsimp only
  split_ifs <;> rfl

theorem State.payloadFinish_withPorts (s : State) (p q : PortStat) :
    (s.withPorts p q).payloadFinish = s.payloadFinish.withPorts p q := by
  unfold State.payloadFinish State.withPorts
  dsimp only
  split_ifs <;> rfl

theorem hdrInStep_withPorts {s t : State} (p q : PortStat) (h : hdrInStep s = .next t) :
    hdrInStep (s.withPorts p q) = .next (t.withPorts p q) := by
  unfold hdrInStep at h ⊢
  split_ifs at h with hh
  rw [State.withPorts_hpos, if_pos hh, State.srcRead_withPorts]
  rcases hr : s.srcRead with _ | ⟨b | _, a⟩ <;> simp only [hr] at h <;> cases h
  · rfl
  · exact congrArg Host.Outcome.next (a.headerByteIn_withPorts p q b)
  · rfl

theorem hdrOutStep_withPorts {s t : State} (p q : PortStat) (h : hdrOutStep s = .next t) :
    hdrOutStep (s.withPorts p q) = .next (t.withPorts p q) := by
  unfold hdrOutStep at h ⊢
  split_ifs at h with hh
  rw [State.withPorts_hpos, State.withPorts_hdr, if_pos hh, State.snkWrite_withPorts]
  rcases hr : s.snkWrite (s.hdr.read s.hpos.toNat) with _ | ⟨_ | _, a⟩ <;> simp only [hr] at h <;> cases h
  · rfl
  · exact congrArg Host.Outcome.next (a.headerByteOut_withPorts p q)
  · rfl

theorem payloadByteStep_withPorts {s t : State} (p q : PortStat) (h : payloadByteStep s = .next t) :
    payloadByteStep (s.withPorts p q) = .next (t.withPorts p q) := by
  unfold payloadByteStep at h ⊢
  rw [State.srcRead_withPorts]
  rcases hr : s.srcRead with _ | ⟨b | _, a⟩ <;> simp only [hr] at h
  case some.byte =>
    simp only [Option.map_some, State.payloadByte_withPorts, State.snkWrite_withPorts]
    rcases hw : a.snkWrite (s.payloadByte b) with _ | ⟨_ | _, c⟩ <;> (simp only [hw] at h; cases h; rfl)
  all_goals (cases h; rfl)

/-- Below XLEN a pass moves a byte (41_keystream.md R117). -/
theorem payloadStep_of_lt {s : State} (hx : s.pos.toNat < s.xlen.toNat) : payloadStep s = payloadByteStep s :=
  if_pos hx

/-- At XLEN a pass finishes (41_keystream.md R118). -/
theorem payloadStep_of_eq {s : State} (hx : s.pos = s.xlen) : payloadStep s = .next s.payloadFinish := by
  rw [payloadStep, if_neg (by rw [hx]; exact Nat.lt_irrefl _), if_pos hx]

theorem payloadStep_withPorts {s t : State} (p q : PortStat) (h : payloadStep s = .next t) :
    payloadStep (s.withPorts p q) = .next (t.withPorts p q) := by
  unfold payloadStep at h
  split_ifs at h with hx hx'
  · rw [payloadStep_of_lt (s := s.withPorts p q) hx]
    exact payloadByteStep_withPorts p q h
  · cases h
    rw [payloadStep_of_eq (s := s.withPorts p q) hx', s.payloadFinish_withPorts]

/-- An engine step does the same with other port inputs: its one enabled step, phase by phase. -/
theorem engineStep_withPorts {s t : State} (p q : PortStat) (h : engineStep s = .next t) :
    engineStep (s.withPorts p q) = .next (t.withPorts p q) := by
  unfold engineStep at h ⊢
  rw [State.withPorts_phase]
  cases hp : s.phase <;> simp only [hp] at h ⊢
  case none => cases h; rfl
  case hdrIn => exact hdrInStep_withPorts p q h
  case hdrOut => exact hdrOutStep_withPorts p q h
  case payload => exact payloadStep_withPorts p q h

/-- Settles O46: `engineStep_withPorts`, for every value of the two inputs. -/
theorem engineStepIgnoresPorts : Obligations.EngineStepIgnoresPorts := fun _ _ p q h => engineStep_withPorts p q h

end Sys2Proof.Machine
end

section
/-! Which accesses reach a register (20_memory.md R51, R52): the register map is one to one, and every other access is
answered with a bus error that changes nothing. -/

namespace Sys2Proof

/-- Every 4-aligned offset outside 0x28 to 0x7C is a register's (20_memory.md R51). -/
theorem Reg.exists_decode {o : Offset} (hal : o.toNat % 4 = 0) (hm : o.toNat < 0x28 ∨ 0x80 ≤ o.toNat) :
    ∃ r, Reg.decode o = .ok r := by
  have hlt := o.isLt
  rcases hm with hlow | hhigh
  · obtain ⟨k, hk, rfl⟩ : ∃ k < 10, o = BitVec.ofNat 8 (4 * k) :=
      ⟨o.toNat / 4, by omega, BitVec.eq_of_toNat_eq (by rw [BitVec.toNat_ofNat]; omega)⟩
    interval_cases k <;> exact ⟨_, rfl⟩
  · exact ⟨_, Reg.decode_header (k := (o.toNat - 0x80) / 4) (by omega) (by omega)⟩

/-- The three conditions of a well-formed access (20_memory.md R52). -/
theorem BusTxn.wellFormed_iff (x : BusTxn) :
    x.wellFormed = true ↔
      x.width = .w32 ∧ x.offset.toNat % 4 = 0 ∧ (x.offset.toNat < 0x28 ∨ 0x80 ≤ x.offset.toNat) := by
  simp [BusTxn.wellFormed, and_assoc]

/-- An access that reaches a register is well formed. -/
theorem BusTxn.wellFormed_of_target {x : BusTxn} {r : Reg} (ht : x.target = .ok r) : x.wellFormed = true := by
  obtain ⟨hw, ho⟩ := BusTxn.of_target ht
  rw [BusTxn.wellFormed_iff, ho]
  exact ⟨hw, r.offset_mapped⟩

/-- Settles O6: a register decodes from its own offset and from no other; a well-formed access is 32 bits wide at an offset
that decodes, and an access that reaches a register is at that register's mapped offset. -/
theorem registerMapRoundTrip : Obligations.RegisterMapRoundTrip := by
  refine ⟨Reg.decode_offset, fun _ _ => Reg.offset_of_decode, fun x => ⟨fun h => ?_, fun ⟨_, ht⟩ => ?_⟩⟩
  · obtain ⟨hw, hal, hm⟩ := x.wellFormed_iff.1 h
    rw [BusTxn.target_word hw]
    exact Reg.exists_decode hal hm
  · exact BusTxn.wellFormed_of_target ht

end Sys2Proof

namespace Sys2Proof.Machine

open Sys2Proof

/-- Settles O30: an access with one of the three faults reaches no register, so that it is the bus error of
`step_busError`. -/
theorem busErrorChangesNothing : Obligations.BusErrorChangesNothing := by
  intro s x rest hh hbad
  cases ht : x.target with
  | error e => exact step_busError hh ht
  | ok r =>
    obtain ⟨hw, hal, hm⟩ := x.wellFormed_iff.1 (BusTxn.wellFormed_of_target ht)
    rcases hbad with hwidth | hoffset
    · exact absurd hw hwidth
    · omega

end Sys2Proof.Machine
end

section
/-! The two streams (20_memory.md R60, R62, R63): the events that a step adds to the history record the answers it takes
from the front of the queues. -/

namespace Sys2Proof.Machine

open Sys2Proof

theorem sourceTaken_append (a b : List Event) : sourceTaken (a ++ b) = sourceTaken a ++ sourceTaken b := by
  simp [sourceTaken, List.filterMap_append]

theorem sinkTaken_append (a b : List Event) : sinkTaken (a ++ b) = sinkTaken a ++ sinkTaken b := by
  simp [sinkTaken, List.filterMap_append]

/-- Each byte the sink has taken has an answer of its own. -/
theorem length_sinkBytes_le (es : List Event) : (sinkBytes es).length ≤ (sinkTaken es).length := by
  induction es with
  | nil => exact Nat.le_refl 0
  | cons e es ih =>
    cases e with
    | snkWrite b r => cases r with
      | ok => exact Nat.succ_le_succ ih
      | fail => exact Nat.le_succ_of_le ih
    | _ => exact ih

/-- The events `es` take no answer of either stream. -/
def Quiet (es : List Event) : Prop := sourceTaken es = [] ∧ sinkTaken es = []

theorem Quiet.append {a b : List Event} (ha : Quiet a) (hb : Quiet b) : Quiet (a ++ b) := by
  obtain ⟨hsrcA, hsnkA⟩ := ha
  obtain ⟨hsrcB, hsnkB⟩ := hb
  exact ⟨by rw [sourceTaken_append, hsrcA, hsrcB, List.append_nil],
    by rw [sinkTaken_append, hsnkA, hsnkB, List.append_nil]⟩

theorem Quiet.sinkBytes_eq {es : List Event} (h : Quiet es) : sinkBytes es = [] := by
  obtain ⟨-, hsnk⟩ := h
  have hle := length_sinkBytes_le es
  rw [hsnk] at hle
  exact List.length_eq_zero_iff.1 (Nat.le_zero.1 hle)

/-- Giving a port back takes no answer (60_exceptions.md R150). -/
theorem State.releases_quiet (s : State) (b : Bool) : Quiet (s.releases b) := by
  unfold State.releases State.boundReleases
  split_ifs <;> exact ⟨rfl, rfl⟩

/-- From `s` to `t` the events `es` are added to the history, at most one answer of each stream is taken, from the front of
its queue, and no byte reaches the sink where the Error state is entered (20_memory.md R60, R62, R63). -/
structure State.Takes (s t : State) (es : List Event) : Prop where
  history : t.history = s.history ++ es
  source : s.srcAnswers = sourceTaken es ++ t.srcAnswers
  sink : s.snkAnswers = sinkTaken es ++ t.snkAnswers
  sourceOnce : (sourceTaken es).length ≤ 1
  sinkOnce : (sinkTaken es).length ≤ 1
  noByteIntoError : t.state = .error → s.state ≠ .error → sinkBytes es = []

/-- A step that only adds quiet events takes nothing. -/
theorem State.Takes.of_quiet {s t : State} {es : List Event} (hq : Quiet es) (hh : t.history = s.history ++ es)
    (hsrc : t.srcAnswers = s.srcAnswers) (hsnk : t.snkAnswers = s.snkAnswers) : s.Takes t es := by
  have hbytes := hq.sinkBytes_eq
  obtain ⟨hq1, hq2⟩ := hq
  exact ⟨hh, by rw [hq1, hsrc]; rfl, by rw [hq2, hsnk]; rfl, by simp [hq1], by simp [hq2], fun _ _ => hbytes⟩

/-- Where the answers taken put no byte into the sink, raising an error afterwards takes no more and writes no more. -/
theorem State.Takes.raise {s t : State} {es : List Event} (h : s.Takes t es) (hw : sinkBytes es = []) (b : Bool)
    (e : ErrCode) : s.Takes (t.raise b e) (es ++ t.releases b) := by
  have hr := t.releases_quiet b
  have hbytes := hr.sinkBytes_eq
  obtain ⟨hr1, hr2⟩ := hr
  have hsrc : sourceTaken (es ++ t.releases b) = sourceTaken es := by rw [sourceTaken_append, hr1, List.append_nil]
  have hsnk : sinkTaken (es ++ t.releases b) = sinkTaken es := by rw [sinkTaken_append, hr2, List.append_nil]
  exact
    { history := by rw [State.raise_history, h.history, List.append_assoc]
      source := by rw [hsrc, State.raise_srcAnswers, h.source]
      sink := by rw [hsnk, State.raise_snkAnswers, h.sink]
      sourceOnce := by rw [hsrc]; exact h.sourceOnce
      sinkOnce := by rw [hsnk]; exact h.sinkOnce
      noByteIntoError := fun _ _ => by rw [sinkBytes_append, hw, hbytes]; rfl }

/-- What an engine move takes: nothing, one source answer, one sink answer, or in PAYLOAD one of each. -/
theorem EngineMove.takes {s t : State} (m : EngineMove s t) : ∃ es, s.Takes t es := by
  cases m with
  | hold => exact ⟨[], .of_quiet ⟨rfl, rfl⟩ (List.append_nil _).symm rfl rfl⟩
  | headerEof _ _ ha | payloadEof _ _ ha =>
    refine ⟨_, State.Takes.raise (es := [.srcRead .eof]) ?_ rfl false _⟩
    exact ⟨rfl, ha, rfl, Nat.le_refl 1, Nat.zero_le 1, fun _ _ => rfl⟩
  | @headerIn b _ _ _ ha =>
    rw [State.headerByteIn_frame]
    exact ⟨[.srcRead (.byte b)], rfl, ha, rfl, Nat.le_refl 1, Nat.zero_le 1, fun _ _ => rfl⟩
  | headerFail _ _ ha =>
    refine ⟨_, State.Takes.raise (es := [.snkWrite (s.hdr.read s.hpos.toNat) .fail]) ?_ rfl false _⟩
    exact ⟨rfl, rfl, ha, Nat.zero_le 1, Nat.le_refl 1, fun _ _ => rfl⟩
  | headerOut _ _ ha =>
    rw [State.headerByteOut_frame]
    exact ⟨[.snkWrite (s.hdr.read s.hpos.toNat) .ok], rfl, rfl, ha, Nat.zero_le 1, Nat.le_refl 1,
      fun herr hne => absurd herr hne⟩
  | @payloadFail b _ _ _ _ ha hb =>
    refine ⟨_, State.Takes.raise (es := [.srcRead (.byte b), .snkWrite (s.payloadByte b) .fail]) ?_ rfl false _⟩
    exact ⟨rfl, ha, hb, Nat.le_refl 1, Nat.le_refl 1, fun _ _ => rfl⟩
  | @payloadOk b _ _ _ _ ha hb =>
    exact ⟨[.srcRead (.byte b), .snkWrite (s.payloadByte b) .ok], rfl, ha, hb, Nat.le_refl 1, Nat.le_refl 1,
      fun herr hne => absurd herr hne⟩
  | finish =>
    unfold State.payloadFinish
    split_ifs
    · exact ⟨[.srcRelease, .snkClose], .of_quiet ⟨rfl, rfl⟩ rfl rfl rfl⟩
    · exact ⟨[], .of_quiet ⟨rfl, rfl⟩ (List.append_nil _).symm rfl rfl⟩

/-- An accepted command takes no answer and adds at most the releases of a failing RUN (60_exceptions.md R150). -/
theorem AcceptedMove.quiet {a t : State} {i : Instr} (m : AcceptedMove a i t) :
    ∃ es, Quiet es ∧ t.history = a.history ++ es ∧ t.srcAnswers = a.srcAnswers ∧ t.snkAnswers = a.snkAnswers := by
  cases m
  case illegal | buildFail | readFail | emitFail | xformFail | runFail =>
    exact ⟨_, a.releases_quiet true, rfl, rfl, rfl⟩
  all_goals exact ⟨[], ⟨rfl, rfl⟩, (List.append_nil _).symm, rfl, rfl⟩

/-- No command takes an answer in its acceptance step (42_control.md R126). -/
theorem exec_quiet {i : Instr} {s t : State} (h : exec i s = .next t) :
    ∃ es, Quiet es ∧ t.history = s.history ++ es ∧ t.srcAnswers = s.srcAnswers ∧ t.snkAnswers = s.snkAnswers := by
  rcases exec_move h with ⟨-, rfl⟩ | ⟨-, m⟩
  · exact ⟨[], ⟨rfl, rfl⟩, (List.append_nil _).symm, rfl, rfl⟩
  · exact m.quiet

/-- A poll records its read of STATUS (30_encoding.md R86). -/
theorem pollStep_history (gap : Nat) (s : State) :
    (pollStep gap s).history = s.history ++ [.access (BusTxn.read .status) (.data s.statusWord)] := by
  unfold pollStep
  dsimp only
  split_ifs <;> rfl

/-- The state with the answers that the host gives in its next action queued behind those already there (log 3). -/
def State.withGiven (s : State) : State :=
  { s with srcAnswers := s.srcAnswers ++ s.sourceGiven, snkAnswers := s.snkAnswers ++ s.sinkGiven }

/-- Where the host's next action gives no answer the queues stay as they are. -/
theorem State.withGiven_eq {s : State} (hsrc : ∀ r rest, s.host ≠ .answerSource r :: rest)
    (hsnk : ∀ r rest, s.host ≠ .answerSink r :: rest) : s.withGiven = s := by
  have hsrc' : s.sourceGiven = [] := by
    unfold State.sourceGiven
    split
    · exact absurd ‹_› (hsrc _ _)
    · rfl
  have hsnk' : s.sinkGiven = [] := by
    unfold State.sinkGiven
    split
    · exact absurd ‹_› (hsnk _ _)
    · rfl
  rw [State.withGiven, hsrc', hsnk', List.append_nil, List.append_nil]

/-- What a step takes from the queues as its own host action leaves them: an engine's turn takes what its move takes, and
every other step takes nothing. -/
theorem StepMove.takes {s t : State} (m : StepMove s t) : ∃ es, s.withGiven.Takes t es := by
  cases m with
  | engine hh hm =>
    rw [State.withGiven_eq (by simp [hh]) (by simp [hh])]
    exact hm.takes
  | tick hh hm =>
    rw [State.withGiven_eq (by simp [hh]) (by simp [hh])]
    obtain ⟨es, ht⟩ := hm.takes
    exact ⟨es, ht.history, ht.source, ht.sink, ht.sourceOnce, ht.sinkOnce, ht.noByteIntoError⟩
  | busWrite hh =>
    rw [State.withGiven_eq (by simp [hh]) (by simp [hh]), State.writeReg_frame]
    exact ⟨_, .of_quiet ⟨rfl, rfl⟩ rfl rfl rfl⟩
  | @command _ x _ hh _ _ hx =>
    rw [State.withGiven_eq (by simp [hh]) (by simp [hh])]
    obtain ⟨es, hq, hes, hsrc, hsnk⟩ := exec_quiet hx
    refine ⟨[.access x .done] ++ es, .of_quiet (Quiet.append ⟨rfl, rfl⟩ hq) ?_ hsrc hsnk⟩
    rw [hes, State.record_history, List.append_assoc]
  | wait hh =>
    rw [State.withGiven_eq (by simp [hh]) (by simp [hh]), pollStep_frame, pollStep_history]
    exact ⟨_, .of_quiet ⟨rfl, rfl⟩ rfl rfl rfl⟩
  | answerSource hh | answerSink hh =>
    refine ⟨[], .of_quiet ⟨rfl, rfl⟩ (List.append_nil _).symm ?_ ?_⟩ <;>
      simp [State.withGiven, State.sourceGiven, State.sinkGiven, hh]
  | busError hh | busRead hh | ports hh | reset hh =>
    rw [State.withGiven_eq (by simp [hh]) (by simp [hh])]
    exact ⟨_, .of_quiet ⟨rfl, rfl⟩ rfl rfl rfl⟩

/-- Settles O43: the events of `StepMove.takes`. -/
theorem streamsTakenInOrder : Obligations.StreamsTakenInOrder := by
  intro s t h
  obtain ⟨es, ht⟩ := (step_move h).takes
  exact ⟨es, ht.history, ht.source, ht.sink, ht.sourceOnce, ht.sinkOnce⟩

/-- Settles O44: the bytes among the events of `StepMove.takes`, no more of them than sink answers taken. -/
theorem sinkOnlyGrows : Obligations.SinkOnlyGrows := by
  intro s t h
  obtain ⟨es, ht⟩ := (step_move h).takes
  refine ⟨sinkBytes es, ?_, (length_sinkBytes_le es).trans ht.sinkOnce, ht.noByteIntoError⟩
  rw [ht.history, sinkBytes_append]
  rfl

end Sys2Proof.Machine
end

section
/-! Command words (30_encoding.md R75 to R77): decoding reads the OP field alone, so encode and decode agree on every
command and, but for the ignored bits, on every word. -/

namespace Sys2Proof

/-- Decoding reads OP = w[3:0] alone (30_encoding.md R77): the low three bits that the illegal row keeps lie in it. -/
theorem decode_congr {w w' : Word} (h : w'.extractLsb' 0 4 = w.extractLsb' 0 4) : decode w' = decode w := by
  have low (v : Word) : v.extractLsb' 0 3 = (v.extractLsb' 0 4).extractLsb' 0 3 := by
    rw [BitVec.extractLsb'_extractLsb'_of_le (by decide)]
  rw [decode, decode, low w', low w, h]

/-- The decoded command has the word's OP value: it is enough to look at the sixteen words whose ignored bits
are zero. -/
theorem Instr.op_decode (w : Word) : (decode w).op = w.extractLsb' 0 4 := by
  have sixteen : ∀ o : OpCode, (0#28 ++ o).extractLsb' 0 4 = o ∧ (decode (0#28 ++ o)).op = o := by decide
  rw [← decode_congr (sixteen (w.extractLsb' 0 4)).1, (sixteen _).2]

/-- Every command's word decodes to it. -/
theorem decode_encode (i : Instr) : decode (encode i) = i := by
  have law : Laws.RoundTrip.Statement i := by
    cases i with
    | nop => exact Laws.RoundTrip.nop
    | run => exact Laws.RoundTrip.run
    | buildHdr => exact Laws.RoundTrip.buildHdr
    | readHdr => exact Laws.RoundTrip.readHdr
    | emitHdr => exact Laws.RoundTrip.emitHdr
    | selTable => exact Laws.RoundTrip.selTable
    | xform => exact Laws.RoundTrip.xform
    | clear => exact Laws.RoundTrip.clear
    | illegal o => exact Laws.RoundTrip.illegal o
  have hwf : i.wellFormed = true := by cases i <;> rfl
  exact (law hwf).1

/-- A command's word is its OP value, with the ignored bits zero (30_encoding.md R75). -/
theorem toNat_encode (i : Instr) : (encode i).toNat = i.op.toNat :=
  (BitVec.toNat_append 0#28 i.op).trans (by simp)

/-- Encoding the decoded command keeps OP and zeroes the ignored bits [31:4] (30_encoding.md R75). -/
theorem encode_decode (w : Word) : encode (decode w) = w &&& 0x0000000F#32 := by
  apply BitVec.eq_of_toNat_eq
  calc (encode (decode w)).toNat
    _ = (w.extractLsb' 0 4).toNat := by rw [toNat_encode, Instr.op_decode]
    _ = w.toNat % 2 ^ 4 := by rw [BitVec.extractLsb'_toNat, Nat.shiftRight_zero]
    _ = (w &&& 0x0000000F#32).toNat := (Nat.and_two_pow_sub_one_eq_mod w.toNat 4).symm

/-- Settles O5: `decode_encode` and `encode_decode`. -/
theorem decodeEncodeRoundTrip : Obligations.DecodeEncodeRoundTrip :=
  ⟨fun i _ => decode_encode i, encode_decode⟩

/-- Settles O4: the OP value by `Instr.op_decode`; the row by `decode_congr`. -/
theorem decodeReadsOnlyOp : Obligations.DecodeReadsOnlyOp :=
  fun w => ⟨Instr.op_decode w, fun _ => decode_congr⟩

/-- Settles O3: ten of the words are the commands' own, and the last is SEL_TABLE's but for its ignored bits. -/
theorem commandWordsDecode : Obligations.CommandWordsDecode :=
  ⟨decode_encode .nop, decode_encode .run, decode_encode .buildHdr, decode_encode .readHdr, decode_encode .emitHdr,
    decode_encode .selTable, decode_encode .xform, decode_encode .clear, decode_encode (.illegal 0b000#3),
    decode_encode (.illegal 0b111#3), (decode_congr (w := encode .selTable) rfl).trans (decode_encode .selTable)⟩

/-- The word of a mnemonic, which is one of the eight defined commands, is below 8 (30_encoding.md R76, R85). -/
theorem encode_lt_of_mnemonic {m : Instr} (h : (HostStmt.cmd m).wellFormed = true) : (encode m).toNat < 8 := by
  cases m with
  | illegal o => cases h
  | nop | run | buildHdr | readHdr | emitHdr | selTable | xform | clear => decide

/-- Settles O34: the expansions are the definition's rows; the word of a mnemonic decodes to it by `decode_encode` and
is below 8 by `encode_lt_of_mnemonic`. -/
theorem hostStatementsExpand : Obligations.HostStatementsExpand :=
  ⟨fun _ _ => ⟨rfl, rfl⟩, fun m h => ⟨encode m, rfl, decode_encode m, encode_lt_of_mnemonic h⟩, rfl, rfl, rfl⟩

end Sys2Proof
end

section
/-! The polling loop `wait` (30_encoding.md R86): the poll of a busy engine, beside `step_wait_free`. -/

namespace Sys2Proof.Machine

open Sys2Proof

/-- A poll of `wait` that finds the engine busy gives it `gap + 1` turns and plans another poll (log 12). -/
theorem step_wait_busy {s : State} {gap : Nat} {rest : List HostAct} (h : s.host = .wait gap :: rest)
    (hp : s.phase ≠ .none) :
    step s = .next
      { s with
        host := List.replicate (gap + 1) .tick ++ .wait gap :: rest
        history := s.history ++ [.access (BusTxn.read .status) (.data s.statusWord)] } := by
  have hb : State.busy { s with host := rest } = true := (State.busy_eq_true_iff _).2 hp
  rw [step_of_host_cons h, hostStep, pollStep, if_pos hb]
  rfl

/-- Settles O35: a poll of a free engine by `step_wait_free`, of a busy one by `step_wait_busy`. -/
theorem waitPollsUntilFree : Obligations.WaitPollsUntilFree :=
  fun _ _ _ h => ⟨step_wait_free h, step_wait_busy h⟩

end Sys2Proof.Machine
end

section
/-! The base offset of an Image (40_header_codec.md R92): the megabyte that `normBase` accepts, and its three ranges. -/

namespace Sys2Proof.Machine

open Sys2Proof

/-- The masked comparison of R92 is a range: BASE_MASK keeps the bits above the low 20, so a word that it maps to
BASE_CONST lies in the megabyte that starts there. -/
theorem and_baseMask_eq_baseConst_iff (b : Word) :
    b &&& Config.baseMask = Config.baseConst ↔ 0x08000000 ≤ b.toNat ∧ b.toNat < 0x08100000 := by
  have hmask : b &&& Config.baseMask = b >>> 20 <<< 20 := (BitVec.shiftLeft_ushiftRight (x := b) (n := 20)).symm
  have hb := b.isLt
  rw [hmask, ← BitVec.toNat_inj, BitVec.toNat_shiftLeft, BitVec.toNat_ushiftRight, Nat.shiftRight_eq_div_pow,
    Nat.shiftLeft_eq, show Config.baseConst.toNat = 0x08000000 from rfl]
  omega

/-- Settles O12: the first range is `normBase`'s first test, the other two its second, read as a range by
`and_baseMask_eq_baseConst_iff`. -/
theorem normBaseRanges : Obligations.NormBaseRanges := by
  intro b
  have hmask := and_baseMask_eq_baseConst_iff b
  have hconst : Config.baseConst.toNat = 0x08000000 := rfl
  refine ⟨fun hlow => ?_, fun hlo hhi => ?_, fun hhigh => ?_⟩
  · rw [normBase, if_pos (by omega)]
  · rw [normBase, if_neg (by omega), if_pos (hmask.2 ⟨hlo, hhi⟩)]
    exact ⟨_, rfl, BitVec.toNat_sub_of_le hlo⟩
  · rw [normBase, if_neg (by omega), if_neg (mt hmask.1 (by omega))]

end Sys2Proof.Machine
end

section
/-! The built header (40_header_codec.md R90, R91): its words, and that the header which a command writes has the fields
of one variant only. -/

namespace Sys2Proof.Machine

open Sys2Proof

/-- Settles O14: `buildHeader_wf` and the two field laws, whose cases exclude each other and so may stand in any
order. -/
theorem builtHeaderFields : Obligations.BuiltHeaderFields := by
  intro size off k hk
  refine ⟨buildHeader_wf _ _ _, buildHeader_wf _ _ _, ?_, ?_⟩
  · rw [buildHeader_image_field size off hk]
    grind
  · rw [buildHeader_resource_field size off hk]
    grind

/-- The size fields of one variant alone: 128 and the payload size in its own pair, 0 in the other's
(40_header_codec.md R90). -/
def Memory.HasOneVariant (m : Memory) (size : Word) : Prop :=
  (m.field 0x44 = 128#32 ∧ m.field 0x3C = 0#32 ∧ m.field 0x14 = size ∧ m.field 0x0C = 0#32) ∨
    (m.field 0x3C = 128#32 ∧ m.field 0x44 = 0#32 ∧ m.field 0x0C = size ∧ m.field 0x14 = 0#32)

theorem buildHeader_hasOneVariant (v : Variant) (size off : Word) : (buildHeader v size off).HasOneVariant size := by
  cases v with
  | image =>
    have word {k : Nat} (hk : k < 32) := buildHeader_image_field size off hk
    exact .inl ⟨word (k := 17) (by decide), word (k := 15) (by decide), word (k := 5) (by decide),
      word (k := 3) (by decide)⟩
  | resource =>
    have word {k : Nat} (hk : k < 32) := buildHeader_resource_field size off hk
    exact .inr ⟨word (k := 15) (by decide), word (k := 17) (by decide), word (k := 3) (by decide),
      word (k := 5) (by decide)⟩

theorem State.builtHeader_of_kind {s : State} {v : Variant} (h : s.kind = some v) :
    s.builtHeader = buildHeader v s.srclen (s.baseOffset v) := by
  rw [State.builtHeader, h]

theorem State.builtHeader_hasOneVariant {s : State} (h : s.kind ≠ none) : s.builtHeader.HasOneVariant s.srclen := by
  obtain ⟨v, hv⟩ := Option.ne_none_iff_exists'.1 h
  rw [State.builtHeader_of_kind hv]
  exact buildHeader_hasOneVariant _ _ _

/-- A BUILD_HDR whose checks pass has a valid KIND (40_header_codec.md R93). -/
theorem State.kind_of_buildCheck {s : State} (h : s.buildCheck = none) : s.kind ≠ none := by
  intro hk
  rw [State.buildCheck, hk] at h
  cases h

/-- A RUN encode whose checks pass has a valid KIND (42_control.md R130). -/
theorem State.kind_of_runCheck {s : State} (h : s.runCheck = none) (he : s.enc = true) : s.kind ≠ none := by
  unfold State.runCheck at h
  split_ifs at h with _ _ _ hk
  exact fun hn => hk ⟨he, hn⟩

/-- With the engine free and no error, a command is accepted and makes one of its moves (42_control.md R126). -/
theorem exec_move_of_free {i : Instr} {s t : State} (hp : s.phase = .none) (he : s.state ≠ .error)
    (h : exec i s = .next t) : AcceptedMove { s with lastop := i.op } i t := by
  rcases exec_move h with ⟨hn, -⟩ | ⟨-, m⟩
  · rw [State.accepts_of_free hp he] at hn
    cases hn
  · exact m

/-- An accepted BUILD_HDR or RUN encode that does not fail leaves the header of one variant. -/
theorem AcceptedMove.hdr_hasOneVariant {a t : State} {i : Instr} (m : AcceptedMove a i t)
    (hi : i = .buildHdr ∨ (i = .run ∧ a.enc = true)) (ht : t.state ≠ .error) : t.hdr.HasOneVariant a.srclen := by
  cases m with
  | build hc => exact a.builtHeader_hasOneVariant (State.kind_of_buildCheck hc)
  | runEncode hc he => exact a.builtHeader_hasOneVariant (State.kind_of_runCheck hc he)
  | buildFail | runFail => exact absurd rfl ht
  | runDecode _ hd => simp [hd] at hi
  | nop | clear | illegal | selTable | readFail | read | emitFail | emit | xformFail | xform => simp at hi

/-- Settles O15: a free engine accepts the command, and its move leaves the header of one variant. -/
theorem writtenHeaderHasOneVariant : Obligations.WrittenHeaderHasOneVariant :=
  fun _ _ _ hi hp he h ht => (exec_move_of_free hp he h).hdr_hasOneVariant hi ht

end Sys2Proof.Machine
end

section
/-! The engine's steps that only wait, fail or end a header (42_control.md R125, 40_header_codec.md R97 to R100,
41_keystream.md R117), beside the equations of the moving steps in Laws/Passes. -/

namespace Sys2Proof.Machine

open Sys2Proof

/-- What `raise` leaves when an engine step fails: a RUN releases both ports (60_exceptions.md R150). -/
theorem State.raise_of_engine (s : State) (e : ErrCode) :
    s.raise false e =
      { s with
        err := e, state := .error, phase := .none
        history := s.history ++ if s.lastop = 0x1#4 then [.srcRelease, .snkClose] else [] } := rfl

theorem engineStep_headerInHold {s : State} (hp : s.phase = .hdrIn) (hh : s.hpos.toNat < 128)
    (ha : s.srcAnswers = []) : engineStep s = .next s := by
  rw [engineStep_of_hdrIn hp, hdrInStep, if_pos (show s.hpos.toNat < Config.hdrSize from hh), State.srcRead_nil ha]

theorem engineStep_headerEof {s : State} {rest : List SrcAnswer} (hp : s.phase = .hdrIn) (hh : s.hpos.toNat < 128)
    (ha : s.srcAnswers = .eof :: rest) :
    engineStep s = .next
      (State.raise { s with srcAnswers := rest, history := s.history ++ [.srcRead .eof] } false .truncHeader) := by
  rw [engineStep_of_hdrIn hp, hdrInStep, if_pos (show s.hpos.toNat < Config.hdrSize from hh), State.srcRead_cons ha]

theorem engineStep_headerOutHold {s : State} (hp : s.phase = .hdrOut) (hh : s.hpos.toNat < 128)
    (ha : s.snkAnswers = []) : engineStep s = .next s := by
  rw [engineStep_of_hdrOut hp, hdrOutStep, if_pos (show s.hpos.toNat < Config.hdrSize from hh), State.snkWrite_nil ha]

theorem engineStep_headerFail {s : State} {rest : List SnkAnswer} (hp : s.phase = .hdrOut) (hh : s.hpos.toNat < 128)
    (ha : s.snkAnswers = .fail :: rest) :
    engineStep s = .next (State.raise
      { s with snkAnswers := rest, history := s.history ++ [.snkWrite (s.hdr.read s.hpos.toNat) .fail] } false
      .sinkWrite) := by
  rw [engineStep_of_hdrOut hp, hdrOutStep, if_pos (show s.hpos.toNat < Config.hdrSize from hh), State.snkWrite_cons ha]

/-- A PAYLOAD byte step waits for the source, and with a byte at hand for the sink (log 3). -/
theorem engineStep_payloadHold {s : State} (hp : s.phase = .payload) (hx : s.pos.toNat < s.xlen.toNat)
    (ha : s.srcAnswers = [] ∨ ∃ b rest, s.srcAnswers = .byte b :: rest ∧ s.snkAnswers = []) :
    engineStep s = .next s := by
  rw [engineStep_of_payload hp, payloadStep_of_lt hx, payloadByteStep]
  rcases ha with ha | ⟨b, rest, ha, hb⟩
  · rw [State.srcRead_nil ha]
  · simp only [State.srcRead_cons ha, State.snkWrite, hb]

theorem engineStep_payloadFail {s : State} {b : Byte} {rest : List SrcAnswer} {rest' : List SnkAnswer}
    (hp : s.phase = .payload) (hx : s.pos.toNat < s.xlen.toNat) (ha : s.srcAnswers = .byte b :: rest)
    (hb : s.snkAnswers = .fail :: rest') :
    engineStep s = .next (State.raise
      { s with
        srcAnswers := rest, snkAnswers := rest'
        history := s.history ++ [.srcRead (.byte b), .snkWrite (s.payloadByte b) .fail] } false .sinkWrite) := by
  rw [engineStep_of_payload hp, payloadStep_of_lt hx, payloadByteStep]
  simp only [State.srcRead, ha, State.snkWrite, hb, State.record, List.append_assoc, List.singleton_append]

/-- Above XLEN a pass has no step (log 9). -/
theorem engineStep_payloadStuck {s : State} (hp : s.phase = .payload) (hx : s.xlen.toNat < s.pos.toNat) :
    engineStep s = .fault .noEnabledStep := by
  rw [engineStep_of_payload hp, payloadStep, if_neg (by omega), if_neg fun h => by rw [h] at hx; omega]

/-- Byte 127 ends the header read: HDRV, WSIZE and what follows (40_header_codec.md R97, R98). -/
theorem State.headerByteIn_last {s : State} (h : s.hpos.toNat = 127) (b : Byte) :
    s.headerByteIn b =
      { s with
        hdr := s.hdr.write s.hpos.toNat b, hpos := 128#8, hdrv := true
        wsize := (s.hdr.write s.hpos.toNat b).declaredSize != s.srclen - 128#32
        phase := if s.lastop = 0x1#4 then .payload else .none } := by
  have hlast : s.hpos + 1#8 = 128#8 := (hpos_eq_iff (by omega)).2 h
  simp only [State.headerByteIn, hlast, if_true, State.headerReadComplete]

/-- The last byte of a header sent by a RUN starts the payload pass (40_header_codec.md R100). -/
theorem State.headerByteOut_last_run {s : State} (h : s.hpos.toNat = 127) (hl : s.lastop = 0x1#4) :
    s.headerByteOut = { s with hpos := 128#8, pos := 0#32, phase := .payload } := by
  have hlast : s.hpos + 1#8 = 128#8 := (hpos_eq_iff (by omega)).2 h
  simp only [State.headerByteOut, hlast, hl, if_true]

/-- The last byte of a header sent by a primitive ends the phase (40_header_codec.md R100). -/
theorem State.headerByteOut_last_primitive {s : State} (h : s.hpos.toNat = 127) (hl : s.lastop ≠ 0x1#4) :
    s.headerByteOut = { s with hpos := 128#8, phase := .none } := by
  have hlast : s.hpos + 1#8 = 128#8 := (hpos_eq_iff (by omega)).2 h
  simp only [State.headerByteOut, hlast, hl, if_true, if_false]

/-- Settles O18: the header afterwards is HDR with the byte written at HPOS, and the step is the equation of the answer
at hand. -/
theorem headerInStep : Obligations.HeaderInStep := by
  intro s hp hh hw
  refine ⟨engineStep_headerInHold hp hh, fun rest ha => ?_, fun b rest ha =>
    ⟨s.hdr.write s.hpos.toNat b, Memory.wf_write hw b hh, Memory.read_write_same hw _ b,
      fun a hne => Memory.read_write_of_ne s.hdr b hne, fun hlt => ?_, fun hlast => ?_⟩⟩
  · rw [engineStep_headerEof hp hh ha, State.raise_of_engine]
    simp
  · rw [engineStep_headerIn hp hh ha, headerByteIn_of_lt (by simp only; omega)]
  · rw [engineStep_headerIn hp hh ha, State.headerByteIn_last (by exact hlast), Memory.declaredSize]

/-- Settles O20: the step is the equation of the answer at hand, and an `Ok` moves HPOS on or ends the header. -/
theorem headerOutStep : Obligations.HeaderOutStep := by
  intro s hp hh
  refine ⟨engineStep_headerOutHold hp hh, fun rest ha => ?_, fun rest ha =>
    ⟨fun hlt => ?_, fun hlast hrun => ?_, fun hlast hprim => ?_⟩⟩
  · rw [engineStep_headerFail hp hh ha, State.raise_of_engine]
    simp
  · rw [engineStep_headerOut hp hh ha, headerByteOut_of_lt (by simp only; omega)]
  · exact (engineStep_headerOut hp hh ha).trans (congrArg _ (State.headerByteOut_last_run hlast hrun))
  · exact (engineStep_headerOut hp hh ha).trans (congrArg _ (State.headerByteOut_last_primitive hlast hprim))

end Sys2Proof.Machine
end

section
/-! The header does not steer the engine (40_header_codec.md R102): outside HDR_OUT a step does the same whatever HDR,
HDRV and WSIZE hold. -/

namespace Sys2Proof.Machine

open Sys2Proof

/-- The state with another header and other header flags. -/
def State.withHeader (s : State) (h : Memory) (v w : Bool) : State := { s with hdr := h, hdrv := v, wsize := w }

theorem State.payloadFinish_withHeader (s : State) (h : Memory) (v w : Bool) :
    (s.withHeader h v w).payloadFinish = s.payloadFinish.withHeader h v w := by
  unfold State.payloadFinish State.withHeader
  dsimp only
  split_ifs <;> rfl

/-- A byte read into another header leaves another header and nothing else different. -/
theorem State.headerByteIn_withHeader (s : State) (h : Memory) (v w : Bool) (b : Byte) :
    ∃ h' v' w', (s.withHeader h v w).headerByteIn b = (s.headerByteIn b).withHeader h' v' w' := by
  unfold State.headerByteIn State.withHeader
  dsimp only
  split_ifs <;> exact ⟨_, _, _, rfl⟩

theorem engineStep_withHeader_of_hdrIn {s t : State} (h : Memory) (v w : Bool) (hp : s.phase = .hdrIn)
    (hs : engineStep s = .next t) : ∃ h' v' w', engineStep (s.withHeader h v w) = .next (t.withHeader h' v' w') := by
  by_cases hh : s.hpos.toNat < 128
  case neg =>
    rw [engineStep_of_hdrIn hp, hdrInStep, if_neg (show ¬ s.hpos.toNat < Config.hdrSize from hh)] at hs
    cases hs
  rcases ha : s.srcAnswers with _ | ⟨b | _, rest⟩
  · cases (engineStep_headerInHold hp hh ha).symm.trans hs
    exact ⟨h, v, w, engineStep_headerInHold (s := s.withHeader h v w) hp hh ha⟩
  · cases (engineStep_headerIn hp hh ha).symm.trans hs
    obtain ⟨h', v', w', hb⟩ := State.headerByteIn_withHeader
      { s with srcAnswers := rest, history := s.history ++ [.srcRead (.byte b)] } h v w b
    exact ⟨h', v', w', (engineStep_headerIn (s := s.withHeader h v w) hp hh ha).trans (congrArg _ hb)⟩
  · cases (engineStep_headerEof hp hh ha).symm.trans hs
    exact ⟨h, v, w, engineStep_headerEof (s := s.withHeader h v w) hp hh ha⟩

/-- A step of a pass reads no header field and writes none. -/
theorem engineStep_withHeader_of_payload {s t : State} (h : Memory) (v w : Bool) (hp : s.phase = .payload)
    (hs : engineStep s = .next t) : engineStep (s.withHeader h v w) = .next (t.withHeader h v w) := by
  rcases Nat.lt_trichotomy s.pos.toNat s.xlen.toNat with hx | hx | hx
  · rcases ha : s.srcAnswers with _ | ⟨b | _, rest⟩
    · cases (engineStep_payloadHold hp hx (.inl ha)).symm.trans hs
      exact engineStep_payloadHold (s := s.withHeader h v w) hp hx (.inl ha)
    · rcases hb : s.snkAnswers with _ | ⟨_ | _, rest'⟩
      · cases (engineStep_payloadHold hp hx (.inr ⟨b, rest, ha, hb⟩)).symm.trans hs
        exact engineStep_payloadHold (s := s.withHeader h v w) hp hx (.inr ⟨b, rest, ha, hb⟩)
      · cases (engineStep_payloadOk hp hx ha hb).symm.trans hs
        exact engineStep_payloadOk (s := s.withHeader h v w) hp hx ha hb
      · cases (engineStep_payloadFail hp hx ha hb).symm.trans hs
        exact engineStep_payloadFail (s := s.withHeader h v w) hp hx ha hb
    · cases (engineStep_payloadEof hp hx ha).symm.trans hs
      exact engineStep_payloadEof (s := s.withHeader h v w) hp hx ha
  · have hend : s.pos = s.xlen := BitVec.eq_of_toNat_eq hx
    cases (engineStep_finish hp hend).symm.trans hs
    rw [engineStep_finish (s := s.withHeader h v w) hp hend, s.payloadFinish_withHeader]
  · cases (engineStep_payloadStuck hp hx).symm.trans hs

/-- Settles O47: with nothing running nothing changes, and the two phases left have their own laws. -/
theorem headerDoesNotSteer : Obligations.HeaderDoesNotSteer := by
  intro s t h v w hout hs
  change ∃ h' v' w', engineStep (s.withHeader h v w) = .next (t.withHeader h' v' w')
  cases hp : s.phase with
  | none =>
    have idle {u : State} (hu : u.phase = .none) : engineStep u = .next u := by rw [engineStep, hu]
    cases (idle hp).symm.trans hs
    exact ⟨h, v, w, idle (u := s.withHeader h v w) hp⟩
  | hdrIn => exact engineStep_withHeader_of_hdrIn h v w hp hs
  | hdrOut => exact absurd hp hout
  | payload => exact ⟨h, v, w, engineStep_withHeader_of_payload h v w hp hs⟩

end Sys2Proof.Machine
end

section
/-! The acceptance of the header commands (40_header_codec.md R93, R95, R96, R99): what each does where its checks fail
and where they pass. -/

namespace Sys2Proof.Machine

open Sys2Proof

section Accepted

variable {s : State} (hp : s.phase = .none) (he : s.state ≠ .error)
include hp he

/-- A primitive that a free engine accepts and whose checks fail writes LASTOP, ERR and STATE and touches no port
(60_exceptions.md R150). -/
theorem State.onAccept_of_failure {op : OpCode} {e : ErrCode} {body : State → Result} (ho : op ≠ 0x1#4)
    (hb : body { s with lastop := op } = .next (State.raise { s with lastop := op } true e)) :
    s.onAccept op body = .next { s with lastop := op, err := e, state := .error } := by
  rw [State.onAccept_of_accepts (State.accepts_of_free hp he op), hb, State.raise_primitive e op hp ho]

theorem exec_buildHdr_fails {e : ErrCode} (hc : s.buildCheck = some e) :
    exec .buildHdr s = .next { s with lastop := 0x2#4, err := e, state := .error } := by
  rw [exec, execBuildHdr]
  refine State.onAccept_of_failure hp he (by decide) ?_
  rw [show State.buildCheck { s with lastop := 0x2#4 } = some e from hc]

theorem exec_buildHdr_passes (hc : s.buildCheck = none) :
    exec .buildHdr s = .next { s with lastop := 0x2#4, hdr := s.builtHeader, hdrv := true } := by
  rw [exec, execBuildHdr, State.onAccept_of_accepts (State.accepts_of_free hp he _),
    show State.buildCheck { s with lastop := 0x2#4 } = none from hc]
  rfl

theorem exec_readHdr_fails {e : ErrCode} (hc : s.readHdrCheck = some e) :
    exec .readHdr s = .next { s with lastop := 0x3#4, err := e, state := .error } := by
  rw [exec, execReadHdr]
  refine State.onAccept_of_failure hp he (by decide) ?_
  rw [show State.readHdrCheck { s with lastop := 0x3#4 } = some e from hc]

theorem exec_readHdr_passes (hc : s.readHdrCheck = none) :
    exec .readHdr s = .next (State.headerReadStart { s with lastop := 0x3#4 }) := by
  rw [exec, execReadHdr, State.onAccept_of_accepts (State.accepts_of_free hp he _),
    show State.readHdrCheck { s with lastop := 0x3#4 } = none from hc]

theorem exec_emitHdr_fails {e : ErrCode} (hc : s.emitHdrCheck = some e) :
    exec .emitHdr s = .next { s with lastop := 0x4#4, err := e, state := .error } := by
  rw [exec, execEmitHdr]
  refine State.onAccept_of_failure hp he (by decide) ?_
  rw [show State.emitHdrCheck { s with lastop := 0x4#4 } = some e from hc]

theorem exec_emitHdr_passes (hc : s.emitHdrCheck = none) :
    exec .emitHdr s = .next { s with lastop := 0x4#4, hpos := 0#8, phase := .hdrOut } := by
  rw [exec, execEmitHdr, State.onAccept_of_accepts (State.accepts_of_free hp he _),
    show State.emitHdrCheck { s with lastop := 0x4#4 } = none from hc]

end Accepted

/-- Settles O13: KIND by `State.kind_eq` decides the check and, with BASE for an Image, the header built. -/
theorem buildHdrResult : Obligations.BuildHdrResult := by
  intro s hp he
  refine ⟨fun hk => ?_, fun hk hb => ?_, fun off hk hb => ?_, fun hk => ?_⟩
  · have kind : s.kind = none := by rcases hk with hk | hk <;> simp [State.kind_eq, hk]
    exact exec_buildHdr_fails hp he (by rw [State.buildCheck, kind])
  · have kind : s.kind = some .image := by simp [State.kind_eq, hk]
    exact exec_buildHdr_fails hp he (by simp only [State.buildCheck, kind, hb])
  · have kind : s.kind = some .image := by simp [State.kind_eq, hk]
    rw [exec_buildHdr_passes hp he (by simp only [State.buildCheck, kind, hb]), State.builtHeader_of_kind kind,
      State.baseOffset, hb, Option.getD_some]
  · have kind : s.kind = some .resource := by simp [State.kind_eq, hk]
    rw [exec_buildHdr_passes hp he (by simp only [State.buildCheck, kind]), State.builtHeader_of_kind kind,
      State.baseOffset]

/-- Settles O17: the check by the source's port and SRCLEN, and then the header-read start. -/
theorem readHdrAcceptance : Obligations.ReadHdrAcceptance := by
  intro s hp he
  refine ⟨fun hs => exec_readHdr_fails hp he ?_, fun hs => exec_readHdr_fails hp he ?_,
    fun hs hl => exec_readHdr_fails hp he ?_, fun hs hl => exec_readHdr_passes hp he ?_⟩
  · simp [State.readHdrCheck, hs]
  · simp [State.readHdrCheck, hs]
  · simp [State.readHdrCheck, hs, Config.hdrSize, hl]
  · simp [State.readHdrCheck, hs, Config.hdrSize, Nat.not_lt.2 hl]

/-- Settles O19: the check by the sink's port alone. -/
theorem emitHdrAcceptance : Obligations.EmitHdrAcceptance := by
  intro s hp he
  refine ⟨fun hs => exec_emitHdr_fails hp he ?_, fun hs => exec_emitHdr_fails hp he ?_,
    fun hs => exec_emitHdr_passes hp he ?_⟩
  all_goals simp [State.emitHdrCheck, hs]

end Sys2Proof.Machine
end

section
/-! The keystream transform as a function of byte sequences (41_keystream.md R111, R112, R114, R115): each byte by
itself, and the laws that follow. -/

namespace Sys2Proof.Machine

open Sys2Proof

/-- The keystream byte at position i is the table's entry i mod 256 (41_keystream.md R111). -/
theorem key_eq_getElem (t : Table) (i : Nat) : key t i = t[i % 256]'(Nat.mod_lt _ (by decide)) := rfl

/-- The keystream depends on its position mod 256 alone. -/
theorem key_congr (t : Table) {i j : Nat} (h : i % 256 = j % 256) : key t i = key t j := by
  simp only [key_eq_getElem, h]

/-- Every byte of a transform, from any first position (41_keystream.md R112). -/
theorem getElem?_transformFrom (t : Table) (i : Nat) (p : List Byte) (k : Nat) :
    (transformFrom t i p)[k]? = (p[k]?).map fun b => b ^^^ key t (i + k) := by
  induction p generalizing i k with
  | nil => rfl
  | cons b rest ih =>
    cases k with
    | zero => rfl
    | succ k => rw [transformFrom, List.getElem?_cons_succ, List.getElem?_cons_succ, ih, Nat.succ_add_eq_add_succ]

theorem getElem?_transform (t : Table) (p : List Byte) (i : Nat) :
    (transform t p)[i]? = (p[i]?).map fun b => b ^^^ key t i := by
  rw [transform, getElem?_transformFrom, Nat.zero_add]

/-- Settles O25: a transform keeps the length, and its bytes are those of `getElem?_transform`. -/
theorem transformBytes : Obligations.TransformBytes :=
  fun t p => ⟨transformFrom_length t 0 p, fun i _ => getElem?_transform t p i⟩

/-- The same key byte is applied twice at each position, and so cancels. -/
theorem transformFrom_transformFrom (t : Table) (i : Nat) (p : List Byte) :
    transformFrom t i (transformFrom t i p) = p := by
  induction p generalizing i with
  | nil => rfl
  | cons b rest ih => rw [transformFrom, transformFrom, ih, BitVec.xor_assoc, BitVec.xor_self, BitVec.xor_zero]

/-- Settles O26: `transformFrom_transformFrom` from position 0. -/
theorem transformIsSelfInverse : Obligations.TransformIsSelfInverse := fun t p => transformFrom_transformFrom t 0 p

/-- Settles O27: the two bytes are combined with one key byte, which their XOR cancels. -/
theorem keystreamHasPeriod256 : Obligations.KeystreamHasPeriod256 := by
  intro t
  have period (i : Nat) : key t i = key t (i + 256) := key_congr t (Nat.add_mod_right i 256).symm
  refine ⟨period, fun p i a b x y ha hb hx hy => ?_⟩
  rw [getElem?_transform, ha] at hx
  rw [getElem?_transform, hb, ← period] at hy
  cases hx
  cases hy
  calc (a ^^^ key t i) ^^^ (b ^^^ key t i)
    _ = (a ^^^ b) ^^^ (key t i ^^^ key t i) := by ac_rfl
    _ = a ^^^ b := by rw [BitVec.xor_self, BitVec.xor_zero]

end Sys2Proof.Machine
end

section
/-! The acceptance of SEL_TABLE and XFORM (41_keystream.md R113, R116). -/

namespace Sys2Proof.Machine

open Sys2Proof

section Accepted

variable {s : State} (hp : s.phase = .none) (he : s.state ≠ .error)
include hp he

theorem exec_selTable_of_free :
    exec .selTable s = .next { s with lastop := 0x5#4, tsel := s.selectedTable } := by
  rw [exec, execSelTable, State.onAccept_of_accepts (State.accepts_of_free hp he _)]
  rfl

theorem exec_xform_fails {e : ErrCode} (hc : s.xformCheck = some e) :
    exec .xform s = .next { s with lastop := 0x6#4, err := e, state := .error } := by
  rw [exec, execXform]
  refine State.onAccept_of_failure hp he (by decide) ?_
  rw [show State.xformCheck { s with lastop := 0x6#4 } = some e from hc]

theorem exec_xform_passes (hc : s.xformCheck = none) :
    exec .xform s = .next { s with lastop := 0x6#4, pos := 0#32, phase := .payload } := by
  rw [exec, execXform, State.onAccept_of_accepts (State.accepts_of_free hp he _),
    show State.xformCheck { s with lastop := 0x6#4 } = none from hc]

end Accepted

/-- The comparison that selects the table is over all 32 bits of CID (41_keystream.md R113). -/
theorem State.selectedTable_eq (s : State) : s.selectedTable = decide (s.cid.toNat = 2) :=
  decide_eq_decide.2 BitVec.toNat_inj.symm

/-- Settles O21: the command writes the comparison `State.selectedTable_eq` to TSEL. -/
theorem selTableComparesWholeCid : Obligations.SelTableComparesWholeCid := by
  intro s hp he
  rw [exec_selTable_of_free hp he, State.selectedTable_eq]
  exact ⟨fun h => by rw [decide_eq_true h], fun h => by rw [decide_eq_false h]⟩

/-- With both ports Bound, XFORM's checks pass (41_keystream.md R116). -/
theorem State.xformCheck_of_bound {s : State} (hs : s.srcStat = .bound) (hk : s.snkStat = .bound) :
    s.xformCheck = none := by
  simp [State.xformCheck, hs, hk]

/-- Settles O22: the check by the two ports, an Unbound one before one that failed to open. -/
theorem xformAcceptance : Obligations.XformAcceptance := by
  intro s hp he
  refine ⟨fun hu => exec_xform_fails hp he ?_, fun hu ho => exec_xform_fails hp he ?_,
    fun hs hk => exec_xform_passes hp he (State.xformCheck_of_bound hs hk)⟩
  · rw [State.xformCheck, if_pos hu]
  · rw [State.xformCheck, if_neg hu, if_pos ho]

end Sys2Proof.Machine
end

section
/-! The engine's steps in PAYLOAD (41_keystream.md R117, R118, R121): the byte offered, and the state each step
leaves. -/

namespace Sys2Proof.Machine

open Sys2Proof

/-- The byte offered depends on the byte read, the tables, TSEL and POS mod 256 (41_keystream.md R121). -/
theorem State.payloadByte_congr {s s' : State} (h1 : s.kt1 = s'.kt1) (h2 : s.kt2 = s'.kt2) (ht : s.tsel = s'.tsel)
    (hi : s.pos.toNat % 256 = s'.pos.toNat % 256) (b : Byte) : s.payloadByte b = s'.payloadByte b := by
  have table : s.table = s'.table := by rw [State.table, State.table, h1, h2, ht]
  rw [State.payloadByte_eq, State.payloadByte_eq, table, key_congr s'.table hi]

/-- With both answers at hand a PAYLOAD byte step records the byte read and then the byte offered with its answer. -/
theorem engineStep_payload_records {s : State} {b : Byte} {r : SnkAnswer} {rest : List SrcAnswer}
    {rest' : List SnkAnswer} (hp : s.phase = .payload) (hx : s.pos.toNat < s.xlen.toNat)
    (ha : s.srcAnswers = .byte b :: rest) (hb : s.snkAnswers = r :: rest') :
    ∃ (t : State) (es : List Event), engineStep s = .next t ∧
      t.history = s.history ++ .srcRead (.byte b) :: .snkWrite (s.payloadByte b) r :: es := by
  cases r with
  | ok => exact ⟨_, [], engineStep_payloadOk hp hx ha hb, rfl⟩
  | fail => exact ⟨_, s.releases false, engineStep_payloadFail hp hx ha hb, List.append_assoc _ _ _⟩

/-- Settles O48: both steps record the byte they offer, and it is one byte by `State.payloadByte_congr`. -/
theorem payloadByteDependsOnlyOnItsPosition : Obligations.PayloadByteDependsOnlyOnItsPosition := by
  intro s s' b rs rs' r rk rk' hp hp' hx hx' ha ha' hb hb' h1 h2 ht hi
  obtain ⟨t, es, hs, hes⟩ := engineStep_payload_records hp hx ha hb
  obtain ⟨t', es', hs', hes'⟩ := engineStep_payload_records hp' hx' ha' hb'
  rw [← State.payloadByte_congr h1 h2 ht hi] at hes'
  exact ⟨_, t, t', es, es', hs, hs', hes, hes'⟩

/-- Settles O23: the step is the equation of the answers at hand, with the byte offered by `State.payloadByte_eq`. -/
theorem payloadByteStep_outcomes : Obligations.PayloadByteStep := by
  intro s hp hx
  refine ⟨fun ha => engineStep_payloadHold hp hx (.inl ha), fun rest ha => ?_, fun b rest ha =>
    ⟨fun hb => engineStep_payloadHold hp hx (.inr ⟨b, rest, ha, hb⟩), fun rest' hb => ?_, fun rest' hb => ?_⟩⟩
  · rw [engineStep_payloadEof hp hx ha, State.raise_of_engine]
    simp
  · rw [engineStep_payloadFail hp hx ha hb, State.raise_of_engine, State.payloadByte_eq]
    simp [key_eq_getElem, State.table]
  · rw [engineStep_payloadOk hp hx ha hb, State.payloadByte_eq]
    rfl

/-- A RUN's pass ends with run completion (42_control.md R134). -/
theorem State.payloadFinish_of_run {s : State} (hl : s.lastop = 0x1#4) :
    s.payloadFinish =
      { s with phase := .none, state := .idle, history := s.history ++ [.srcRelease, .snkClose] } := by
  rw [State.payloadFinish, if_pos hl]
  rfl

/-- An XFORM's pass ends with its phase and nothing else (41_keystream.md R118). -/
theorem State.payloadFinish_of_primitive {s : State} (hl : s.lastop ≠ 0x1#4) :
    s.payloadFinish = { s with phase := .none } := by
  rw [State.payloadFinish, if_neg hl]

/-- Settles O24: the finish step, by what LASTOP says of the pass. -/
theorem payloadFinishStep : Obligations.PayloadFinishStep := by
  intro s hp hx
  rw [engineStep_finish hp hx]
  exact ⟨fun hl => by rw [State.payloadFinish_of_run hl], fun hl => by rw [State.payloadFinish_of_primitive hl]⟩

end Sys2Proof.Machine
end

section
/-! Whole XFORM passes (41_keystream.md R120): from acceptance over the bytes moved to the finish step, or to the step
that stops the pass. -/

namespace Sys2Proof.Machine

open Sys2Proof

theorem sourceBytes_payloadEvents (t : Table) (i : Nat) (bs : List Byte) :
    sourceBytes (payloadEvents t i bs) = bs := by
  induction bs generalizing i with
  | nil => rfl
  | cons b rest ih => exact congrArg (b :: ·) (ih (i + 1))

/-- Moving bytes gives no port back (60_exceptions.md R150). -/
theorem payloadEvents_not_isRelease (t : Table) (i : Nat) (bs : List Byte) :
    (payloadEvents t i bs).all (fun e => !e.isRelease) = true := by
  induction bs generalizing i with
  | nil => rfl
  | cons b rest ih => exact ih (i + 1)

/-- What an accepted XFORM leaves where its checks pass (41_keystream.md R116). -/
def State.xformStarted (s : State) : State := { s with lastop := 0x6#4, pos := 0#32, phase := .payload }

@[simp] theorem State.xformStarted_pos (s : State) : s.xformStarted.pos = 0#32 := rfl
@[simp] theorem State.xformStarted_xlen (s : State) : s.xformStarted.xlen = s.xlen := rfl
@[simp] theorem State.xformStarted_lastop (s : State) : s.xformStarted.lastop = 0x6#4 := rfl

/-- A ready engine starts an XFORM. -/
theorem State.Ready.exec_xform {s : State} (h : s.Ready) : exec .xform s = .next s.xformStarted :=
  exec_xform_passes h.free (by simp [h.idle]) (State.xformCheck_of_bound h.source h.sink)

/-- Settles O52: the pass of `payload_whole` from the started XFORM, whose finish step ends the phase alone. -/
theorem xformWholePass : Obligations.XformWholePass := by
  intro s p rs rk hr hx hq
  refine ⟨s.xformStarted, payloadEvents s.table 0 p, hr.exec_xform, ?_, sinkBytes_payloadEvents s.table 0 p,
    sourceBytes_payloadEvents s.table 0 p, payloadEvents_not_isRelease s.table 0 p⟩
  rw [payload_whole (s := s.xformStarted) p hr.noHost rfl hx s.xformStarted_pos hq.source hq.sink,
    State.payloadFinish_of_primitive (by simp), ← hr.free]
  rfl

/-- An XFORM that has moved the bytes p and has more to move: the state in which its next step decides. -/
def State.xformAfter (s : State) (p : List Byte) (rs : List SrcAnswer) (rk : List SnkAnswer) : State :=
  { s.xformStarted with
    pos := BitVec.ofNat 32 p.length, srcAnswers := rs, snkAnswers := rk
    history := s.history ++ payloadEvents s.table 0 p }

section Stopped

variable {s : State} {p : List Byte} {rs : List SrcAnswer} {rk : List SnkAnswer} (hx : p.length < s.xlen.toNat)
include hx

/-- In a pass that has more to move POS counts the bytes moved, without wrapping. -/
theorem State.xformAfter_pos : (s.xformAfter p rs rk).pos.toNat = p.length := by
  have fits := s.xlen.isLt
  exact (BitVec.toNat_ofNat ..).trans (Nat.mod_eq_of_lt (by omega))

theorem runFor_xformStarted (hr : s.Ready) (hq : s.Answers p p.length rs rk) :
    runFor p.length s.xformStarted = .next (s.xformAfter p rs rk) := by
  have fits : s.xformStarted.pos.toNat + p.length ≤ s.xformStarted.xlen.toNat := by simpa using hx.le
  rw [payload_pass (s := s.xformStarted) p hr.noHost rfl fits hq.source hq.sink, State.xformStarted_pos,
    BitVec.zero_add]
  rfl

/-- Where the step after the bytes p raises an error, the pass has stopped at POS = m, with the transform of p in the
sink and nothing after it. -/
theorem xform_stops {e : ErrCode} {es : List Event} {rs' : List SrcAnswer} {rk' : List SnkAnswer} (hr : s.Ready)
    (hq : s.Answers p p.length rs rk) (hes : sinkBytes es = [])
    (hstep : engineStep (s.xformAfter p rs rk) = .next (State.raise
      { s.xformAfter p rs rk with
        srcAnswers := rs', snkAnswers := rk', history := (s.xformAfter p rs rk).history ++ es } false e)) :
    ∃ a t : State, exec .xform s = .next a ∧ runFor (p.length + 1) a = .next t ∧ t.state = .error ∧ t.err = e ∧
      t.phase = .none ∧ t.pos.toNat = p.length ∧
      sinkBytes t.history = sinkBytes s.history ++ transform s.table p := by
  have stop := (step_of_host_nil (s := s.xformAfter p rs rk) hr.noHost).trans hstep
  refine ⟨s.xformStarted, _, hr.exec_xform, (runFor_add (runFor_xformStarted hx hr hq) 1).trans (runFor_succ stop 0),
    rfl, rfl, rfl, State.xformAfter_pos (rs := rs) (rk := rk) hx, ?_⟩
  rw [State.raise_history, sinkBytes_append, sinkBytes_releases, List.append_nil, sinkBytes_append, hes,
    List.append_nil]
  exact (sinkBytes_append ..).trans (congrArg _ (sinkBytes_payloadEvents s.table 0 p))

end Stopped

/-- Settles O53: after the bytes p the step is that of `Eof` or of `Fail`, which adds no byte to the sink. -/
theorem xformStoppedPass : Obligations.XformStoppedPass := by
  intro s p rs rk hr hx
  have more (ra : List SrcAnswer) (rb : List SnkAnswer) :
      (s.xformAfter p ra rb).pos.toNat < (s.xformAfter p ra rb).xlen.toNat := by
    rwa [State.xformAfter_pos hx]
  exact ⟨fun hq => xform_stops hx hr hq rfl (engineStep_payloadEof rfl (more _ _) rfl),
    fun b hq => xform_stops hx hr hq rfl (engineStep_payloadFail rfl (more _ _) rfl rfl)⟩

end Sys2Proof.Machine
end

section
/-! The control commands that take no phase (42_control.md R126 to R129, R139, R140): what each does when the engine
accepts it, and when it is ignored. -/

namespace Sys2Proof.Machine

open Sys2Proof

/-- In Error only NOP and CLEAR are accepted (42_control.md R128). -/
theorem State.accepts_of_error {s : State} {i : Instr} (he : s.state = .error) (hn : i ≠ .nop) (hc : i ≠ .clear) :
    s.accepts i.op = false := by
  refine Bool.eq_false_iff.2 fun h => ?_
  obtain ⟨-, hok | hzero | hseven⟩ := (s.accepts_iff i.op).1 h
  · exact hok he
  · exact hn (Instr.op_eq_zero hzero)
  · exact hc (Instr.op_eq_seven hseven)

/-- Settles O36: an ignored command changes nothing. -/
theorem errorStateIgnoresCommands : Obligations.ErrorStateIgnoresCommands :=
  fun _ _ he hn hc => exec_ignored (State.accepts_of_error he hn hc)

/-- While busy every command is ignored (42_control.md R127). -/
theorem exec_of_busy {s : State} (hp : s.phase ≠ .none) (i : Instr) : exec i s = .next s :=
  exec_ignored (State.accepts_of_busy hp i.op)

/-- A free engine accepts NOP in every STATE, and NOP writes LASTOP alone (42_control.md R129). -/
theorem exec_nop_of_free {s : State} (hp : s.phase = .none) : exec .nop s = .next { s with lastop := 0x0#4 } := by
  rw [exec, execNop, State.onAccept_of_accepts ((s.accepts_iff _).2 ⟨hp, .inr (.inl rfl)⟩)]

/-- Settles O7: `exec_nop_of_free`, and `exec_of_busy`. -/
theorem nopSetsOnlyLastop : Obligations.NopSetsOnlyLastop :=
  fun _ => ⟨exec_nop_of_free, fun hp => exec_of_busy hp .nop⟩

/-- A free engine accepts CLEAR in every STATE (42_control.md R139). -/
theorem exec_clear_of_free {s : State} (hp : s.phase = .none) :
    exec .clear s = .next { s with lastop := 0x7#4, err := .none, state := .idle } := by
  rw [exec, execClear, State.onAccept_of_accepts ((s.accepts_iff _).2 ⟨hp, .inr (.inr rfl)⟩)]
  rfl

/-- Settles O8: `exec_clear_of_free`, whose writes of ERR and STATE change nothing in Idle without an error. -/
theorem clearLeavesErrorState : Obligations.ClearLeavesErrorState := by
  intro s
  refine ⟨exec_clear_of_free, fun hp hs he => ?_, fun hp => exec_of_busy hp .clear⟩
  rw [exec_clear_of_free hp, ← hs, ← he]

/-- No illegal OP is RUN's. -/
theorem Instr.op_illegal_ne_run (o : BitVec 3) : 0b1#1 ++ o ≠ 0x1#4 := by
  revert o; decide

/-- Settles O9: in Idle the command is accepted and raises its error; in Error and while busy it is ignored. -/
theorem illegalOpRaises : Obligations.IllegalOpRaises := by
  intro s o
  refine ⟨fun hp hs => ?_, fun he => exec_ignored (State.accepts_of_error he (by simp) (by simp)),
    fun hp => exec_of_busy hp (.illegal o)⟩
  rw [exec, execIllegal]
  exact State.onAccept_of_failure hp (by simp [hs]) (Instr.op_illegal_ne_run o) rfl

/-- Settles O37: PHASE = NONE is the case of the engine step that changes nothing. -/
theorem freeEngineHasNoStep : Obligations.FreeEngineHasNoStep := by
  intro s hp
  rw [engineStep, hp]

end Sys2Proof.Machine
end

section
/-! Writes to CMD (42_control.md R126, R127): the command that such a write starts, and that a busy engine
ignores it. -/

namespace Sys2Proof.Machine

open Sys2Proof

/-- A 32-bit write at CMD's offset starts the decoded command (10_state.md R29). -/
theorem step_commandWrite {s : State} {x : BusTxn} {rest : List HostAct} (hh : s.host = .bus x :: rest)
    (hk : x.kind = .wr) (hw : x.width = .w32) (ho : x.offset = 0x14#8) :
    step s = exec (decode x.data) { s with host := rest, history := s.history ++ [.access x .done] } := by
  refine step_busWrite (r := .cmd) hh hk ?_
  rw [BusTxn.target_word hw, ho]
  rfl

/-- Settles O28: `step_commandWrite`, for any write to CMD and for the one that `withFetchWord` places. -/
theorem stepRunsDecodedCommand : Obligations.StepRunsDecodedCommand := by
  refine ⟨fun s x rest => step_commandWrite, fun s w => ?_⟩
  have word : BitVec.ofNat 32 (w.toNat % 2 ^ 32) = w :=
    BitVec.eq_of_toNat_eq (by rw [BitVec.toNat_ofNat, Nat.mod_mod, Nat.mod_eq_of_lt w.isLt])
  rw [State.withFetchWord, word]
  exact step_commandWrite (s := s.withCommandWord w) rfl rfl rfl rfl

/-- Settles O29: a busy engine ignores the command that a write to CMD starts, and by O32 a write to a configuration
register. -/
theorem busyIgnoresWrites : Obligations.BusyIgnoresWrites := by
  intro s x rest hp hh hk hw ho
  by_cases hcmd : x.offset = 0x14#8
  · rw [step_commandWrite hh hk hw hcmd]
    exact exec_of_busy (by exact hp) _
  · obtain ⟨busy, -⟩ := registerWrites s x rest hh hk hw
    refine busy hp ?_
    simpa [hcmd] using ho

end Sys2Proof.Machine
end

section
/-! RUN's acceptance (42_control.md R130, R131): what it leaves where a check fails and where every check passes. -/

namespace Sys2Proof.Machine

open Sys2Proof

section Accepted

variable {s : State} (hp : s.phase = .none) (he : s.state ≠ .error)
include hp he

/-- A RUN whose checks fail releases each Bound port (60_exceptions.md R150). -/
theorem exec_run_fails {e : ErrCode} (hc : s.runCheck = some e) :
    exec .run s = .next
      { s with
        lastop := 0x1#4, err := e, state := .error
        history := s.history ++ ((if s.srcStat = .bound then [.srcRelease] else []) ++
          (if s.snkStat = .bound then [.snkClose] else [])) } := by
  rw [exec, execRun, State.onAccept_of_accepts (State.accepts_of_free hp he _),
    show State.runCheck { s with lastop := 0x1#4 } = some e from hc]
  exact congrArg _ (State.raise_run_acceptance e hp)

theorem exec_run_encode (hc : s.runCheck = none) (henc : s.enc = true) :
    exec .run s = .next (State.runEncodeSetup { s with lastop := 0x1#4 }) := by
  rw [exec, execRun, State.onAccept_of_accepts (State.accepts_of_free hp he _),
    show State.runCheck { s with lastop := 0x1#4 } = none from hc]
  exact congrArg _ (if_pos henc)

theorem exec_run_decode (hc : s.runCheck = none) (henc : s.enc = false) :
    exec .run s = .next (State.runDecodeSetup { s with lastop := 0x1#4 }) := by
  rw [exec, execRun, State.onAccept_of_accepts (State.accepts_of_free hp he _),
    show State.runCheck { s with lastop := 0x1#4 } = none from hc]
  exact congrArg _ (if_neg (by rw [show State.enc { s with lastop := 0x1#4 } = false from henc]; decide))

/-- A RUN whose checks pass enters the mode of its direction, with no event and no error (42_control.md R131). -/
theorem exec_run_passes (hc : s.runCheck = none) :
    ∃ t, exec .run s = .next t ∧ t.err = s.err ∧ t.history = s.history ∧
      t.state = if s.enc then .encoding else .decoding := by
  cases henc : s.enc with
  | true => exact ⟨_, exec_run_encode hp he hc henc, rfl, rfl, rfl⟩
  | false => exact ⟨_, exec_run_decode hp he hc henc, rfl, rfl, rfl⟩

end Accepted

/-- Settles O10: each clause's premises decide the checks of `State.runCheck_eq` up to the first that fails. -/
theorem runChecksInOrder : Obligations.RunChecksInOrder := by
  intro s hp he enc dec kind unbound openFailed badKind badBase short fails
  have check : s.runCheck =
      if enc ∧ dec then some .modeConflict else if ¬ enc ∧ ¬ dec then some .noOperation
      else if unbound then some .missingIo else if badKind then some .invalidMode
      else if badBase then some .invalidBase else if openFailed then some .openError
      else if short then some .truncHeader else none := s.runCheck_eq
  have fail {e : ErrCode} (hc : s.runCheck = some e) : fails e := exec_run_fails hp he hc
  refine ⟨fun h => fail ?_, fun h => fail ?_, fun hone => ?_⟩
  · rw [check, if_pos h]
  · rw [check, if_neg (by tauto), if_pos h]
  have valid : s.runCheck = _ := check.trans ((if_neg (by tauto)).trans (if_neg (by tauto)))
  refine ⟨fun hu => fail ?_, fun ⟨hu, hk⟩ => fail ?_, fun ⟨hu, hk, hb⟩ => fail ?_, fun ⟨hu, hk, hb, ho⟩ => fail ?_,
    fun ⟨hu, hk, hb, ho, hs⟩ => fail ?_, fun ⟨hu, hk, hb, ho, hs⟩ => exec_run_passes hp he ?_⟩
  · rw [valid, if_pos hu]
  · rw [valid, if_neg hu, if_pos hk]
  · rw [valid, if_neg hu, if_neg hk, if_pos hb]
  · rw [valid, if_neg hu, if_neg hk, if_neg hb, if_pos ho]
  · rw [valid, if_neg hu, if_neg hk, if_neg hb, if_neg ho, if_pos hs]
  · rw [valid, if_neg hu, if_neg hk, if_neg hb, if_neg ho, if_neg hs]

/-- The operands of an encode with the variant v and the base offset off (40_header_codec.md R92,
42_control.md R130). -/
structure State.EncodeOperands (s : State) (v : Variant) (off : Word) : Prop where
  enc : s.cfg[0] = true
  dec : s.cfg[1] = false
  kind : s.kind = some v
  offset : s.baseOffset v = off
  base : v = .image → normBase s.base ≠ none

theorem State.EncodeOperands.image {s : State} {off : Word} (henc : s.cfg[0] = true) (hdec : s.cfg[1] = false)
    (hv : s.cfg.extractLsb' 2 2 = 0b01#2) (ho : normBase s.base = some off) : s.EncodeOperands .image off :=
  ⟨henc, hdec, by simp [State.kind_eq, hv], by simp [State.baseOffset, ho], fun _ => by simp [ho]⟩

theorem State.EncodeOperands.resource {s : State} {off : Word} (henc : s.cfg[0] = true) (hdec : s.cfg[1] = false)
    (hv : s.cfg.extractLsb' 2 2 = 0b10#2) (ho : off = 0#32) : s.EncodeOperands .resource off :=
  ⟨henc, hdec, by simp [State.kind_eq, hv], ho.symm, nofun⟩

theorem State.EncodeOperands.runCheck {s : State} {v : Variant} {off : Word} (h : s.EncodeOperands v off)
    (hs : s.srcStat = .bound) (hk : s.snkStat = .bound) : s.runCheck = none := by
  have hb : s.kind = some .image → normBase s.base ≠ none := fun hi => h.base (Option.some.inj (h.kind.symm.trans hi))
  have henc : s.enc = true := h.enc
  have hdec : s.dec = false := h.dec
  have hkind : s.kind ≠ none := by simp [h.kind]
  simpa [State.runCheck, henc, hdec, hs, hk, hkind] using hb

theorem State.EncodeOperands.builtHeader {s : State} {v : Variant} {off : Word} (h : s.EncodeOperands v off) :
    s.builtHeader = buildHeader v s.srclen off := by
  rw [State.builtHeader_of_kind h.kind, h.offset]

/-- What an accepted RUN encode leaves (42_control.md R131). -/
def State.encodeStarted (s : State) (v : Variant) (off : Word) : State :=
  { s with
    lastop := 0x1#4, state := .encoding, tsel := s.cid = 2#32, pos := 0#32, hdr := buildHeader v s.srclen off
    hdrv := true, xlen := s.srclen, hpos := 0#8, phase := .hdrOut }

/-- What an accepted RUN decode leaves (42_control.md R131). -/
def State.decodeStarted (s : State) : State :=
  { s with
    lastop := 0x1#4, state := .decoding, tsel := s.cid = 2#32, pos := 0#32, xlen := s.srclen - 128#32
    hdr := [], hdrv := false, wsize := false, hpos := 0#8, phase := .hdrIn }

section Bound

variable {s : State} (hp : s.phase = .none) (he : s.state ≠ .error) (hs : s.srcStat = .bound) (hk : s.snkStat = .bound)
include hp he hs hk

theorem State.EncodeOperands.exec_run {v : Variant} {off : Word} (h : s.EncodeOperands v off) :
    exec .run s = .next (s.encodeStarted v off) := by
  rw [exec_run_encode hp he (h.runCheck hs hk) h.enc, State.encodeStarted, ← h.builtHeader]
  rfl

theorem exec_run_decodeStarted (henc : s.cfg[0] = false) (hdec : s.cfg[1] = true) (hl : 128 ≤ s.srclen.toNat) :
    exec .run s = .next s.decodeStarted := by
  refine exec_run_decode hp he ?_ henc
  have henc : s.enc = false := henc
  have hdec : s.dec = true := hdec
  simp [State.runCheck, henc, hdec, hs, hk, Config.hdrSize, hl]

end Bound

/-- Settles O11: with both ports Bound the operands pass every check, and the setup is that of the direction. -/
theorem runSetup : Obligations.RunSetup := by
  intro s hp he hs hk
  refine ⟨fun henc hdec v off hv ho => ?_, exec_run_decodeStarted hp he hs hk⟩
  cases v with
  | image => exact (State.EncodeOperands.image henc hdec hv ho).exec_run hp he hs hk
  | resource => exact (State.EncodeOperands.resource henc hdec hv ho).exec_run hp he hs hk

end Sys2Proof.Machine
end

section
/-! No step stops under the invariant (42_control.md R125, 70_reset_and_hazards.md R173): the invariant rules out the
two states in which a phase has no step (log 9). -/

namespace Sys2Proof.Machine

open Sys2Proof

theorem engineStep_answers_next {s : State} (h : s.Inv) : ∃ t, engineStep s = .next t := by
  cases hp : s.phase with
  | none => exact ⟨s, freeEngineHasNoStep s hp⟩
  | hdrIn =>
    have hh := h.hposLt (.inl hp)
    rcases ha : s.srcAnswers with _ | ⟨b | _, rest⟩
    · exact ⟨_, engineStep_headerInHold hp hh ha⟩
    · exact ⟨_, engineStep_headerIn hp hh ha⟩
    · exact ⟨_, engineStep_headerEof hp hh ha⟩
  | hdrOut =>
    have hh := h.hposLt (.inr hp)
    rcases ha : s.snkAnswers with _ | ⟨_ | _, rest⟩
    · exact ⟨_, engineStep_headerOutHold hp hh ha⟩
    · exact ⟨_, engineStep_headerOut hp hh ha⟩
    · exact ⟨_, engineStep_headerFail hp hh ha⟩
  | payload =>
    rcases (h.posLe hp).lt_or_eq with hx | hx
    case inr => exact ⟨_, engineStep_finish hp (BitVec.eq_of_toNat_eq hx)⟩
    rcases ha : s.srcAnswers with _ | ⟨b | _, rest⟩
    · exact ⟨_, engineStep_payloadHold hp hx (.inl ha)⟩
    · rcases hb : s.snkAnswers with _ | ⟨_ | _, rest'⟩
      · exact ⟨_, engineStep_payloadHold hp hx (.inr ⟨b, rest, ha, hb⟩)⟩
      · exact ⟨_, engineStep_payloadOk hp hx ha hb⟩
      · exact ⟨_, engineStep_payloadFail hp hx ha hb⟩
    · exact ⟨_, engineStep_payloadEof hp hx ha⟩

/-- A register access is always answered (20_memory.md R52). -/
theorem busAccess_answers_next (x : BusTxn) (s : State) : ∃ t, busAccess x s = .next t := by
  unfold busAccess
  cases x.target with
  | error e => exact ⟨_, rfl⟩
  | ok r =>
    cases x.kind with
    | rd => exact ⟨_, rfl⟩
    | wr =>
      by_cases hr : r = .cmd
      · subst hr
        exact exec_answers_next _ _
      · exact ⟨_, busWrite_of_ne_cmd hr _ _⟩

/-- Settles O51: an engine's turn by the invariant, a register access in any state, and every other host action answers
outright. -/
theorem stepNeverStops : Obligations.StepNeverStops := by
  intro s h
  cases hh : s.host with
  | nil => rw [step_of_host_nil hh]; exact engineStep_answers_next h
  | cons a rest =>
    rw [step_of_host_cons hh]
    cases a with
    | bus x => exact busAccess_answers_next x _
    | tick => exact engineStep_answers_next (h.withHostSide s.srcStat s.snkStat _ _ rest _)
    | ports | answerSource | answerSink | reset | wait => exact ⟨_, rfl⟩

end Sys2Proof.Machine
end

section
/-! The mode table (42_control.md R138): how an engine move and an accepted command may change STATE. -/

namespace Sys2Proof.Machine

open Sys2Proof

/-- The engine changes STATE by an error of a running command or by run completion. -/
theorem EngineMove.mode_change {s t : State} (m : EngineMove s t) (hne : t.state ≠ s.state) :
    (s.phase ≠ .none ∧ t.state = .error ∧ t.err ≠ .none) ∨
      (s.phase = .payload ∧ s.pos = s.xlen ∧ s.lastop = 0x1#4 ∧ t.state = .idle) := by
  cases m with
  | hold | payloadOk => exact absurd rfl hne
  | headerIn => rw [State.headerByteIn_frame] at hne; exact absurd rfl hne
  | headerOut => rw [State.headerByteOut_frame] at hne; exact absurd rfl hne
  | finish hp hx =>
    by_cases hl : s.lastop = 0x1#4
    · exact .inr ⟨hp, hx, hl, by rw [State.payloadFinish_of_run hl]⟩
    · rw [State.payloadFinish_of_primitive hl] at hne; exact absurd rfl hne
  | headerEof hp | headerFail hp | payloadEof hp | payloadFail hp => exact .inl ⟨by simp [hp], rfl, by simp⟩

/-- An accepted command changes STATE as CLEAR, by an error, or as a RUN whose checks pass. -/
theorem AcceptedMove.mode_change {a t : State} {i : Instr} (m : AcceptedMove a i t) (hne : t.state ≠ a.state) :
    (i = .clear ∧ t.state = .idle) ∨ (t.state = .error ∧ t.err ≠ .none) ∨
      (i = .run ∧ t.state = .encoding ∧ a.cfg[0] = true ∧ a.cfg[1] = false) ∨
      (i = .run ∧ t.state = .decoding ∧ a.cfg[0] = false ∧ a.cfg[1] = true) := by
  cases m with
  | nop | selTable | build | read | emit | xform => exact absurd rfl hne
  | clear => exact .inl ⟨rfl, rfl⟩
  | illegal => exact .inr (.inl ⟨rfl, by simp⟩)
  | buildFail hc => exact .inr (.inl ⟨rfl, State.buildCheck_ne_none hc⟩)
  | readFail hc => exact .inr (.inl ⟨rfl, State.readHdrCheck_ne_none hc⟩)
  | emitFail hc => exact .inr (.inl ⟨rfl, State.emitHdrCheck_ne_none hc⟩)
  | xformFail hc => exact .inr (.inl ⟨rfl, State.xformCheck_ne_none hc⟩)
  | runFail hc => exact .inr (.inl ⟨rfl, State.runCheck_ne_none hc⟩)
  | runEncode hc he =>
    obtain ⟨hd, -⟩ := State.of_runCheck hc
    rw [he] at hd
    exact .inr (.inr (.inl ⟨rfl, rfl, he, hd⟩))
  | runDecode hc he =>
    obtain ⟨hd, -⟩ := State.of_runCheck hc
    rw [he] at hd
    exact .inr (.inr (.inr ⟨rfl, rfl, he, hd⟩))

/-- Settles O38: the engine's changes by `EngineMove.mode_change`, a command's by `AcceptedMove.mode_change`; the
invariant says in which STATE each can begin. -/
theorem modeChangesOnlyAsListed : Obligations.ModeChangesOnlyAsListed := by
  intro s t hi h hne
  rcases (step_move h).engine_or_command_or_reset_or_host with ⟨hn, rest, m⟩ | ⟨i, rest, es, hc, hx⟩ | hreset | hf
  · rcases m.mode_change hne with ⟨hp, ht, herr⟩ | ⟨hp, hpos, hl, ht⟩
    · cases hs : s.state with
      | idle => exact .inr (.inr (.inl ⟨rfl, ht, herr, .inr ⟨hp, hn⟩⟩))
      | encoding => exact .inr (.inr (.inr (.inl ⟨.inl rfl, ht, herr, hn⟩)))
      | decoding => exact .inr (.inr (.inr (.inl ⟨.inr rfl, ht, herr, hn⟩)))
      | error => exact absurd (hi.errorNotBusy hs) hp
    · have hp : s.phase = .payload := hp
      have hrun : s.inRun := hi.runIff.2 ⟨by simp [hp], hl⟩
      exact .inr (.inr (.inr (.inr (.inl ⟨hrun, ht, hn, hp, hpos⟩))))
  · rcases exec_move hx with ⟨-, rfl⟩ | ⟨ha, m⟩
    · exact absurd rfl hne
    · obtain ⟨hp, hok⟩ := (State.accepts_iff _ i.op).1 ha
      rcases m.mode_change hne with ⟨rfl, ht⟩ | ⟨ht, herr⟩ | ⟨rfl, ht, henc, hdec⟩ | ⟨rfl, ht, henc, hdec⟩
      · have hs : s.state = .error := by
          by_contra hs
          exact hne (ht.trans (hi.idle_of_free hp hs).symm)
        exact .inr (.inr (.inr (.inr (.inr (.inl ⟨hs, ht, hc⟩)))))
      · have hs : s.state = .idle := hi.idle_of_free hp (ht ▸ hne.symm)
        exact .inr (.inr (.inl ⟨hs, ht, herr, .inl ⟨hp, i, hc⟩⟩))
      · have hs : s.state = .idle := hi.idle_of_free hp (by simpa [Instr.op] using hok)
        exact .inl ⟨hs, ht, hc, henc, hdec⟩
      · have hs : s.state = .idle := hi.idle_of_free hp (by simpa [Instr.op] using hok)
        exact .inr (.inl ⟨hs, ht, hc, henc, hdec⟩)
  · obtain ⟨rest, hh⟩ := hreset
    cases (step_of_host_cons hh).symm.trans h
    exact .inr (.inr (.inr (.inr (.inr (.inr ⟨rfl, rest, hh⟩)))))
  · exact absurd (congrArg State.state hf) hne

end Sys2Proof.Machine
end

section
/-! The end of a RUN (42_control.md R134, 60_exceptions.md R150): its last engine step releases both ports, and no other
engine step releases one. -/

namespace Sys2Proof.Machine

open Sys2Proof

/-- The events from `s` to `t`: no release, but for the two at the end where a RUN ends. -/
def State.ReleasesAtRunExit (s t : State) : Prop :=
  ∃ es : List Event, es.all (fun e => !e.isRelease) = true ∧
    (s.lastop = 0x1#4 → t.phase = .none → t.history = s.history ++ es ++ [.srcRelease, .snkClose]) ∧
    (s.lastop ≠ 0x1#4 ∨ t.phase ≠ .none → t.history = s.history ++ es)

/-- A step that does not end a RUN and makes no release event. -/
theorem State.ReleasesAtRunExit.of_running {s t : State} {es : List Event}
    (hes : es.all (fun e => !e.isRelease) = true) (hh : t.history = s.history ++ es)
    (hrun : s.lastop = 0x1#4 → t.phase ≠ .none) : s.ReleasesAtRunExit t :=
  ⟨es, hes, fun hl hp => absurd hp (hrun hl), fun _ => hh⟩

/-- An error of the engine releases both ports of a RUN and none of a primitive. -/
theorem State.ReleasesAtRunExit.of_raise {s u : State} {es : List Event} (hes : es.all (fun e => !e.isRelease) = true)
    (hh : u.history = s.history ++ es) (hl : u.lastop = s.lastop) (e : ErrCode) :
    s.ReleasesAtRunExit (u.raise false e) := by
  refine ⟨es, hes, fun hrun _ => ?_, fun hprim => ?_⟩
  · rw [State.raise_history, hh, State.releases_run_phase (hl.trans hrun)]
  · have hprim : u.lastop ≠ 0x1#4 := by simpa [hl] using hprim
    rw [State.raise_history, hh, State.releases_of_not_run hprim, List.append_nil]

/-- The last header byte of a RUN is followed by its payload (40_header_codec.md R97). -/
theorem State.headerByteIn_phase_of_run {s : State} (hp : s.phase ≠ .none) (hl : s.lastop = 0x1#4) (b : Byte) :
    (s.headerByteIn b).phase ≠ .none := by
  unfold State.headerByteIn
  dsimp only
  split_ifs
  · simp [State.headerReadComplete, hl]
  · exact hp

/-- The last header byte of a RUN is followed by its payload (40_header_codec.md R100). -/
theorem State.headerByteOut_phase_of_run {s : State} (hp : s.phase ≠ .none) (hl : s.lastop = 0x1#4) :
    s.headerByteOut.phase ≠ .none := by
  unfold State.headerByteOut
  dsimp only
  rw [if_pos hl]
  split_ifs
  · simp
  · exact hp

theorem EngineMove.releasesAtRunExit {s t : State} (m : EngineMove s t) (hp : s.phase ≠ .none) :
    s.ReleasesAtRunExit t := by
  cases m with
  | hold => exact .of_running (es := []) rfl (List.append_nil _).symm fun _ => hp
  | @headerIn b =>
    refine .of_running (es := [.srcRead (.byte b)]) rfl (by rw [State.headerByteIn_frame]) fun hl => ?_
    exact State.headerByteIn_phase_of_run (by exact hp) (by exact hl) b
  | headerOut =>
    refine .of_running (es := [.snkWrite (s.hdr.read s.hpos.toNat) .ok]) rfl (by rw [State.headerByteOut_frame])
      fun hl => ?_
    exact State.headerByteOut_phase_of_run (by exact hp) (by exact hl)
  | @payloadOk b =>
    exact .of_running (es := [.srcRead (.byte b), .snkWrite (s.payloadByte b) .ok]) rfl rfl fun _ => hp
  | headerEof | payloadEof => exact .of_raise (es := [.srcRead .eof]) rfl (by rfl) (by rfl) _
  | headerFail => exact .of_raise (es := [.snkWrite (s.hdr.read s.hpos.toNat) .fail]) rfl (by rfl) (by rfl) _
  | @payloadFail b =>
    exact .of_raise (es := [.srcRead (.byte b), .snkWrite (s.payloadByte b) .fail]) rfl (by rfl) (by rfl) _
  | finish =>
    refine ⟨[], rfl, fun hl _ => ?_, fun hprim => ?_⟩
    · rw [State.payloadFinish_of_run hl, List.append_nil]
    · rw [State.payloadFinish_frame] at hprim
      have hprim : s.lastop ≠ 0x1#4 := by simpa using hprim
      rw [State.payloadFinish_of_primitive hprim, List.append_nil]

/-- Settles O45: each engine move releases both ports exactly where it ends a RUN. -/
theorem runExitReleasesPorts : Obligations.RunExitReleasesPorts :=
  fun _ _ hp h => (engineStep_move h).releasesAtRunExit hp

end Sys2Proof.Machine
end

section
/-! The steps a command takes after its acceptance (42_control.md R141). -/

namespace Sys2Proof.Machine

open Sys2Proof

theorem State.stepsLeft_of_free {s : State} (hp : s.phase = .none) : s.stepsLeft = 0 := by
  rw [State.stepsLeft, hp]

/-- Settles O60: an ignored command, one that fails and one that ends in its acceptance step leave no phase; each other
one starts the phase that its bound counts. -/
theorem commandStepBounds : Obligations.CommandStepBounds := by
  intro i s t hp h
  rcases exec_move h with ⟨-, rfl⟩ | ⟨-, m⟩
  · rw [State.stepsLeft_of_free hp]
    exact Nat.zero_le _
  cases m with
  | nop | clear | selTable | build => exact (State.stepsLeft_of_free (by exact hp)).le
  | illegal | buildFail | readFail | emitFail | xformFail | runFail => exact Nat.zero_le _
  | read | emit => exact Nat.le_refl 128
  | xform => exact Nat.le_refl _
  | runEncode | runDecode => exact Nat.le_refl _

end Sys2Proof.Machine
end

section
/-! The two phases of a RUN (42_control.md R132, R133): 128 steps of its header phase, then its payload pass and run
completion. What holds of a RUN of either direction is said once here. -/

namespace Sys2Proof.Machine

open Sys2Proof

/-- The first k answers of a queue of equal ones, apart from the rest. -/
theorem replicate_append_split {α : Type} (a : α) {k n : Nat} (hk : k ≤ n) (rest : List α) :
    List.replicate n a ++ rest = List.replicate k a ++ (List.replicate (n - k) a ++ rest) := by
  rw [← List.append_assoc, List.replicate_append_replicate, Nat.add_sub_cancel' hk]

/-- The first k bytes of a source, apart from the rest. -/
theorem map_byte_split (p : List Byte) (k : Nat) (rest : List SrcAnswer) :
    p.map SrcAnswer.byte ++ rest = (p.take k).map .byte ++ ((p.drop k).map .byte ++ rest) := by
  rw [← List.append_assoc, ← List.map_append, List.take_append_drop]

/-- A RUN at the start of its payload pass, with the answers for the bytes p at hand. -/
structure State.RunPayload (s : State) (p : List Byte) (rs : List SrcAnswer) (rk : List SnkAnswer) : Prop where
  noHost : s.host = []
  phase : s.phase = .payload
  run : s.lastop = 0x1#4
  length : s.xlen.toNat = p.length
  start : s.pos = 0#32
  answers : s.Answers p p.length rs rk

/-- What a RUN leaves that has moved the bytes p and completed (42_control.md R134). -/
def State.runCompleted (s : State) (p : List Byte) (rs : List SrcAnswer) (rk : List SnkAnswer) : State :=
  { s with
    pos := s.xlen, srcAnswers := rs, snkAnswers := rk, phase := .none, state := .idle
    history := s.history ++ payloadEvents s.table 0 p ++ [.srcRelease, .snkClose] }

/-- Run completion writes no byte to the sink after the transform of p. -/
theorem State.sinkBytes_runCompleted (s : State) (p : List Byte) (rs : List SrcAnswer) (rk : List SnkAnswer) :
    sinkBytes (s.runCompleted p rs rk).history = sinkBytes s.history ++ transform s.table p := by
  rw [State.runCompleted, sinkBytes_append, sinkBytes_append, sinkBytes_payloadEvents]
  exact List.append_nil _

section Payload

variable {s : State} {p : List Byte} {rs : List SrcAnswer} {rk : List SnkAnswer} (h : s.RunPayload p rs rk)
include h

theorem State.RunPayload.during {j : Nat} (hj : j ≤ p.length) :
    ∃ u, runFor j s = .next u ∧ u.state = s.state ∧ u.phase = .payload := by
  have hlen : (p.take j).length = j := List.length_take_of_le hj
  have pass := payload_pass (p.take j) h.noHost h.phase (by rw [h.start, h.length, hlen]; simpa using hj)
    (h.answers.source.trans (map_byte_split p j rs))
    (by rw [hlen]; exact h.answers.sink.trans (replicate_append_split _ hj rk))
  rw [hlen] at pass
  exact ⟨_, pass, rfl, h.phase⟩

theorem State.RunPayload.whole : runFor (p.length + 1) s = .next (s.runCompleted p rs rk) := by
  rw [payload_whole p h.noHost h.phase h.length h.start h.answers.source h.answers.sink,
    State.payloadFinish_of_run (by exact h.run)]
  rfl

/-- A RUN from its acceptance on, where 128 header steps in its mode lead to the payload pass. -/
theorem State.RunPayload.of_header {a : State} {header : Phase}
    (during : ∀ k, k < 128 → ∃ u, runFor k a = .next u ∧ u.state = s.state ∧ u.phase = header)
    (ends : runFor 128 a = .next s) :
    (∀ k, k ≤ 128 + p.length → ∃ u, runFor k a = .next u ∧ u.state = s.state ∧
      u.phase = if k < 128 then header else .payload) ∧
      runFor (128 + p.length + 1) a = .next (s.runCompleted p rs rk) := by
  refine ⟨fun k hk => ?_, (runFor_add ends (p.length + 1)).trans h.whole⟩
  by_cases hlt : k < 128
  · rw [if_pos hlt]
    exact during k hlt
  · obtain ⟨j, rfl⟩ := Nat.exists_eq_add_of_le (Nat.le_of_not_lt hlt)
    rw [if_neg hlt, runFor_add ends]
    exact h.during (by omega)

end Payload

/-- The table that SEL_TABLE and RUN select is the cipher-id's (41_keystream.md R113). -/
theorem State.table_of_selected {s t : State} (ht : t.tsel = decide (s.cid = 2#32)) (h1 : t.kt1 = s.kt1)
    (h2 : t.kt2 = s.kt2) : t.table = s.cipherTable := by
  rw [State.table, State.cipherTable, ht, h1, h2]
  simp only [decide_eq_true_eq]

end Sys2Proof.Machine
end

section
/-! The whole RUN encode (42_control.md R132). -/

namespace Sys2Proof.Machine

open Sys2Proof

/-- Writing header bytes gives no port back. -/
theorem headerOutEvents_not_isRelease (m : Memory) (i n : Nat) :
    (headerOutEvents m i n).all (fun e => !e.isRelease) = true := by
  simp [headerOutEvents, Event.isRelease]

theorem Memory.length_bytes (m : Memory) : m.bytes.length = 128 := by
  rw [Memory.bytes, List.length_map, List.length_range]
  rfl

/-- Fewer than 128 steps of a header-out phase leave it running. -/
theorem headerOut_during {s : State} {n k : Nat} {rk : List SnkAnswer} (hh : s.host = []) (hp : s.phase = .hdrOut)
    (h0 : s.hpos = 0#8) (hk : s.snkAnswers = List.replicate n .ok ++ rk) (hn : k ≤ n) (hlt : k < 128) :
    ∃ u, runFor k s = .next u ∧ u.state = s.state ∧ u.phase = .hdrOut :=
  ⟨_, headerOut_pass k hh hp (by rw [h0]; simpa using hlt) (hk.trans (replicate_append_split _ hn rk)), rfl, hp⟩

/-- A RUN encode whose header has gone to the sink, with the sink's answers rk left (40_header_codec.md R100). -/
def State.encodeHeaderSent (s : State) (v : Variant) (off : Word) (rk : List SnkAnswer) : State :=
  { s.encodeStarted v off with
    hpos := 128#8, phase := .payload, snkAnswers := rk
    history := s.history ++ headerOutEvents (buildHeader v s.srclen off) 0 128 }

theorem State.table_encodeHeaderSent (s : State) (v : Variant) (off : Word) (rk : List SnkAnswer) :
    (s.encodeHeaderSent v off rk).table = s.cipherTable :=
  State.table_of_selected rfl rfl rfl

section Encode

variable {s : State} {v : Variant} {off : Word} {p : List Byte} {rs : List SrcAnswer} {rk : List SnkAnswer}
  (h : s.EncodeReady v off p rs rk)
include h

theorem State.EncodeReady.operands : s.EncodeOperands v off := by
  cases v with
  | image => exact .image h.enc h.dec h.kind h.offset
  | resource => exact .resource h.enc h.dec h.kind h.offset

theorem State.EncodeReady.ne_error : s.state ≠ .error := by
  simp [h.ready.idle]

theorem State.EncodeReady.exec_run : exec .run s = .next (s.encodeStarted v off) :=
  h.operands.exec_run h.ready.free h.ne_error h.ready.source h.ready.sink

theorem State.EncodeReady.sink_split :
    s.snkAnswers = List.replicate 128 .ok ++ (List.replicate p.length .ok ++ rk) := by
  rw [h.answers.sink, replicate_append_split _ (Nat.le_add_right 128 p.length), Nat.add_sub_cancel_left]

theorem State.EncodeReady.headerSent :
    runFor 128 (s.encodeStarted v off) =
      .next (s.encodeHeaderSent v off (List.replicate p.length SnkAnswer.ok ++ rk)) :=
  headerOut_whole (s := s.encodeStarted v off) h.ready.noHost rfl rfl h.sink_split

theorem State.EncodeReady.payload :
    (s.encodeHeaderSent v off (List.replicate p.length .ok ++ rk)).RunPayload p rs rk :=
  ⟨h.ready.noHost, rfl, rfl, h.length, rfl, h.answers.source, rfl⟩

/-- A RUN encode in every step and at its end: 128 steps send the header, then the pass of every RUN. -/
theorem State.EncodeReady.run_whole :
    (∀ k, k ≤ 128 + p.length → ∃ u, runFor k (s.encodeStarted v off) = .next u ∧ u.state = .encoding ∧
      u.phase = if k < 128 then .hdrOut else .payload) ∧
      runFor (128 + p.length + 1) (s.encodeStarted v off) =
        .next ((s.encodeHeaderSent v off (List.replicate p.length .ok ++ rk)).runCompleted p rs rk) :=
  h.payload.of_header (fun _ hk => headerOut_during (s := s.encodeStarted v off) h.ready.noHost rfl rfl h.answers.sink
    (by omega) hk) h.headerSent

end Encode

/-- Settles O54: `State.EncodeReady.run_whole`, with the end state and its events written out. -/
theorem runEncodeWholeSequence : Obligations.RunEncodeWholeSequence := by
  intro s v off p rs rk h
  obtain ⟨during, ends⟩ := h.run_whole
  have sink : sinkBytes (headerOutEvents (buildHeader v s.srclen off) 0 128 ++ payloadEvents s.cipherTable 0 p) =
      (buildHeader v s.srclen off).bytes ++ transform s.cipherTable p := by
    rw [sinkBytes_append, sinkBytes_headerOut_whole, sinkBytes_payloadEvents, transform]
  refine ⟨s.encodeStarted v off, headerOutEvents (buildHeader v s.srclen off) 0 128 ++ payloadEvents s.cipherTable 0 p,
    h.exec_run, during, ?_, sink, ?_, ?_⟩
  · rw [ends, State.runCompleted, State.table_encodeHeaderSent, ← h.ready.idle, ← h.ready.free]
    simp only [State.encodeHeaderSent, State.encodeStarted, List.append_assoc]
  · rw [sink, List.length_append, Memory.length_bytes, transform, transformFrom_length]
  · rw [List.all_append, headerOutEvents_not_isRelease, payloadEvents_not_isRelease]
    rfl

end Sys2Proof.Machine
end

section
/-! The whole header-in phase and the whole RUN decode (40_header_codec.md R98, 42_control.md R133). -/

namespace Sys2Proof.Machine

open Sys2Proof

/-- Reading header bytes gives no port back. -/
theorem readEvents_not_isRelease (bs : List Byte) : (readEvents bs).all (fun e => !e.isRelease) = true := by
  simp [readEvents, Event.isRelease]

theorem Memory.writeAll_concat (m : Memory) (i : Nat) (bs : List Byte) (b : Byte) :
    m.writeAll i (bs ++ [b]) = (m.writeAll i bs).write (i + bs.length) b := by
  induction bs generalizing m i with
  | nil => rfl
  | cons a rest ih =>
    rw [List.cons_append, Memory.writeAll, ih, Memory.writeAll, List.length_cons, Nat.add_right_comm, Nat.add_assoc]

/-- 128 bytes stored from index 0 on are the header's bytes. -/
theorem Memory.bytes_writeAll {bs : List Byte} (hb : bs.length = 128) : (Memory.writeAll [] 0 bs).bytes = bs := by
  refine List.ext_getElem (by rw [Memory.length_bytes, hb]) fun k _ hk => ?_
  simp only [Memory.bytes, List.getElem_map, List.getElem_range]
  rw [Memory.read_writeAll rfl 0 bs (by omega), if_pos (by omega), Nat.sub_zero, List.getD_eq_getElem?_getD,
    List.getElem?_eq_getElem hk, Option.getD_some]

/-- Fewer than 128 steps of a header-in phase leave it running. -/
theorem headerIn_during {s : State} {c : List Byte} {k : Nat} {rs : List SrcAnswer} (hh : s.host = [])
    (hp : s.phase = .hdrIn) (h0 : s.hpos = 0#8) (ha : s.srcAnswers = c.map .byte ++ rs) (hc : k ≤ c.length)
    (hlt : k < 128) : ∃ u, runFor k s = .next u ∧ u.state = s.state ∧ u.phase = .hdrIn := by
  have hlen : (c.take k).length = k := List.length_take_of_le hc
  have pass := headerIn_pass (c.take k) hh hp (by rw [h0, hlen]; simpa using hlt) (ha.trans (map_byte_split c k rs))
  rw [hlen] at pass
  exact ⟨_, pass, rfl, hp⟩

/-- What a header-in phase leaves that has stored the bytes bs (40_header_codec.md R97). -/
def State.headerRead (s : State) (bs : List Byte) (rs : List SrcAnswer) : State :=
  { s with
    hpos := 128#8, srcAnswers := rs, hdr := s.hdr.writeAll 0 bs, hdrv := true
    wsize := (s.hdr.writeAll 0 bs).declaredSize != s.srclen - 128#32
    phase := if s.lastop = 0x1#4 then .payload else .none, history := s.history ++ readEvents bs }

/-- The whole of a header-in phase whose answers are all bytes: 127 of them, and then the one that completes it. -/
theorem headerIn_whole {s : State} {bs : List Byte} {rs : List SrcAnswer} (hh : s.host = []) (hp : s.phase = .hdrIn)
    (h0 : s.hpos = 0#8) (hb : bs.length = 128) (ha : s.srcAnswers = bs.map .byte ++ rs) :
    runFor 128 s = .next (s.headerRead bs rs) := by
  obtain ⟨init, b, rfl⟩ : ∃ init b, bs = init ++ [b] := by
    rcases List.eq_nil_or_concat bs with rfl | ⟨init, b, rfl⟩
    · simp at hb
    · exact ⟨init, b, by simp⟩
  have hinit : init.length = 127 := by simpa using hb
  have pass := headerIn_pass (rs := .byte b :: rs) init hh hp (by rw [h0, hinit]; decide) (by simpa using ha)
  rw [hinit] at pass
  have last : (s.hpos + BitVec.ofNat 8 127).toNat = 127 := by rw [h0]; rfl
  refine (runFor_add pass 1).trans ((runFor_succ ((step_of_host_nil (by exact hh)).trans
    (engineStep_headerIn (by exact hp) (by exact last.trans_lt (by decide)) rfl)) 0).trans (congrArg _ ?_))
  rw [State.headerByteIn_last (by exact last)]
  simp only [State.headerRead, Memory.writeAll_concat, hinit, h0]
  simp [readEvents]

theorem State.table_headerRead_decodeStarted (s : State) (bs : List Byte) (rs : List SrcAnswer) :
    (s.decodeStarted.headerRead bs rs).table = s.cipherTable :=
  State.table_of_selected rfl rfl rfl

section Decode

variable {s : State} {c : List Byte} {n : Nat} {rs : List SrcAnswer} {rk : List SnkAnswer}
  (h : s.DecodeReady c n rs rk)
include h

theorem State.DecodeReady.ne_error : s.state ≠ .error := by
  simp [h.ready.idle]

theorem State.DecodeReady.srclen_eq : s.srclen.toNat = 128 + n := h.length.trans h.split

theorem State.DecodeReady.exec_run : exec .run s = .next s.decodeStarted :=
  exec_run_decodeStarted h.ready.free h.ne_error h.ready.source h.ready.sink h.enc h.dec (by rw [h.srclen_eq]; omega)

/-- The payload's length is what SRCLEN leaves after the header (42_control.md R131). -/
theorem State.DecodeReady.payloadLength : (s.srclen - 128#32).toNat = n := by
  have hs := h.srclen_eq
  rw [BitVec.toNat_sub_of_le (BitVec.le_def.2 (by rw [hs]; exact Nat.le_add_right 128 n)), hs]
  exact Nat.add_sub_cancel_left 128 n

theorem State.DecodeReady.length_header : (c.take 128).length = 128 :=
  List.length_take_of_le (by rw [h.split]; omega)

theorem State.DecodeReady.length_payload : (c.drop 128).length = n := by
  rw [List.length_drop, h.split, Nat.add_sub_cancel_left]

theorem State.DecodeReady.source_split :
    s.srcAnswers = (c.take 128).map .byte ++ ((c.drop 128).map .byte ++ rs) :=
  h.answers.source.trans (map_byte_split c 128 rs)

theorem State.DecodeReady.headerRead :
    runFor 128 s.decodeStarted = .next (s.decodeStarted.headerRead (c.take 128) ((c.drop 128).map .byte ++ rs)) :=
  headerIn_whole (s := s.decodeStarted) h.ready.noHost rfl rfl h.length_header h.source_split

theorem State.DecodeReady.payload :
    (s.decodeStarted.headerRead (c.take 128) ((c.drop 128).map .byte ++ rs)).RunPayload (c.drop 128) rs rk :=
  ⟨h.ready.noHost, rfl, rfl, by rw [h.length_payload]; exact h.payloadLength, rfl, rfl,
    by rw [h.length_payload]; exact h.answers.sink⟩

/-- A RUN decode in every step and at its end: 128 steps read the header, then the pass of every RUN. -/
theorem State.DecodeReady.run_whole :
    (∀ k, k ≤ 128 + n → ∃ u, runFor k s.decodeStarted = .next u ∧ u.state = .decoding ∧
      u.phase = if k < 128 then .hdrIn else .payload) ∧
      runFor (128 + n + 1) s.decodeStarted = .next (State.runCompleted
        (s.decodeStarted.headerRead (c.take 128) ((c.drop 128).map .byte ++ rs)) (c.drop 128) rs rk) := by
  have whole := h.payload.of_header (fun _ hk => headerIn_during (s := s.decodeStarted) h.ready.noHost rfl rfl
    h.answers.source (by rw [h.split]; omega) hk) h.headerRead
  rwa [h.length_payload] at whole

end Decode

/-- Settles O55: `State.DecodeReady.run_whole`, with the end state and its events written out. -/
theorem runDecodeWholeSequence : Obligations.RunDecodeWholeSequence := by
  intro s c n rs rk h
  obtain ⟨during, ends⟩ := h.run_whole
  refine ⟨s.decodeStarted, Memory.writeAll [] 0 (c.take 128), _,
    readEvents (c.take 128) ++ payloadEvents s.cipherTable 0 (c.drop 128), h.exec_run, during, ?_,
    Memory.bytes_writeAll h.length_header, rfl, ?_, ?_⟩
  · rw [ends, State.runCompleted, State.table_headerRead_decodeStarted, ← h.ready.idle, ← h.ready.free]
    simp only [State.headerRead, State.decodeStarted, List.append_assoc]
    rfl
  · rw [sinkBytes_append, sinkBytes_readEvents, sinkBytes_payloadEvents, List.nil_append, transform]
  · rw [List.all_append, readEvents_not_isRelease, payloadEvents_not_isRelease]
    rfl

end Sys2Proof.Machine
end

section
/-! The round trip through RUN (42_control.md R135): the header that an encode writes declares the size that the decode
of its output expects, and the transform is its own inverse. -/

namespace Sys2Proof.Machine

open Sys2Proof

theorem Memory.read_eq_of_bytes_eq {m m' : Memory} (h : m.bytes = m'.bytes) {k : Nat} (hk : k < 128) :
    m.read k = m'.read k :=
  List.map_inj_left.1 h k (List.mem_range.2 hk)

/-- A header's declared size is determined by its 128 bytes. -/
theorem Memory.declaredSize_congr {m m' : Memory} (h : m.bytes = m'.bytes) : m.declaredSize = m'.declaredSize := by
  have field {off : Nat} (ho : off + 4 ≤ 128) : m.field off = m'.field off :=
    Memory.field_congr fun k hk => Memory.read_eq_of_bytes_eq h (by omega)
  rw [Memory.declaredSize, Memory.declaredSize, field (by decide), field (by decide), field (by decide)]

/-- A built header declares the payload size it was built with (40_header_codec.md R90, R97). -/
theorem declaredSize_buildHeader (v : Variant) (size off : Word) : (buildHeader v size off).declaredSize = size := by
  rw [Memory.declaredSize]
  rcases buildHeader_hasOneVariant v size off with ⟨hown, -, hsize, -⟩ | ⟨-, hother, hsize, -⟩
  · rw [hown, hsize, if_pos (by decide)]
  · rw [hother, hsize, if_neg (by decide)]

/-- Settles O56: the two whole sequences, with the encode's output as the decode's container. -/
theorem runRoundTrip : Obligations.RunRoundTrip := by
  intro s a t v off p c rs rk h ha ht hc s' rs' rk' h' hcid h1 h2
  obtain ⟨a₀, es, ha₀, -, ht₀, hsink, -⟩ := runEncodeWholeSequence s v off p rs rk h
  cases ha₀.symm.trans ha
  cases ht₀.symm.trans ht
  have container : c = (buildHeader v s.srclen off).bytes ++ transform s.cipherTable p := by
    rw [← hsink]
    simpa [sinkBytes_append, sinkBytes] using hc.symm
  have header : c.take 128 = (buildHeader v s.srclen off).bytes := by
    rw [container, List.take_left' (Memory.length_bytes _)]
  have payload : c.drop 128 = transform s.cipherTable p := by
    rw [container, List.drop_left' (Memory.length_bytes _)]
  have table : s'.cipherTable = s.cipherTable := by rw [State.cipherTable, State.cipherTable, hcid, h1, h2]
  have size : s'.srclen - 128#32 = s.srclen := BitVec.eq_of_toNat_eq (h'.payloadLength.trans h.length.symm)
  obtain ⟨a', m, w, es', ha', -, ht', hbytes, hw, hsink', -⟩ := runDecodeWholeSequence s' c p.length rs' rk' h'
  refine ⟨a', _, ha', ht', ?_, hbytes, ?_, h'.ready.idle, h'.ready.noError⟩
  · have back : sinkBytes es' = p := by
      rw [hsink', payload, table, transform, transform, transformFrom_transformFrom]
    rw [← back]
    simp [sinkBytes]
  · have declared : m.declaredSize = s.srclen := by
      rw [Memory.declaredSize_congr (hbytes.trans header), declaredSize_buildHeader]
    rw [hw, size, ← declared]
    exact bne_self_eq_false m.declaredSize

end Sys2Proof.Machine
end

section
/-! RUN as primitives (42_control.md R136): the same headers and passes under the commands SEL_TABLE, BUILD_HDR,
EMIT_HDR, READ_HDR and XFORM, which stay in Idle. -/

namespace Sys2Proof.Machine

open Sys2Proof

/-- What SEL_TABLE leaves (41_keystream.md R113). -/
def State.tableSelected (s : State) : State := { s with lastop := 0x5#4, tsel := s.cid = 2#32 }

/-- What BUILD_HDR leaves after SEL_TABLE (40_header_codec.md R93). -/
def State.headerBuilt (s : State) (v : Variant) (off : Word) : State :=
  { s.tableSelected with lastop := 0x2#4, hdr := buildHeader v s.srclen off, hdrv := true }

/-- What EMIT_HDR's acceptance leaves after BUILD_HDR (40_header_codec.md R99). -/
def State.emitStarted (s : State) (v : Variant) (off : Word) : State :=
  { s.headerBuilt v off with lastop := 0x4#4, hpos := 0#8, phase := .hdrOut }

/-- What EMIT_HDR leaves when its header has gone out, with the sink's answers rk left (40_header_codec.md R100). -/
def State.headerEmitted (s : State) (v : Variant) (off : Word) (rk : List SnkAnswer) : State :=
  { s.emitStarted v off with
    hpos := 128#8, phase := .none, snkAnswers := rk
    history := s.history ++ headerOutEvents (buildHeader v s.srclen off) 0 128 }

/-- What READ_HDR's acceptance leaves after SEL_TABLE (40_header_codec.md R96). -/
def State.readStarted (s : State) : State := State.headerReadStart { s.tableSelected with lastop := 0x3#4 }

/-- A ready engine stays in Idle when it starts an XFORM. -/
theorem State.Ready.idle_xform {s a : State} (h : s.Ready) (ha : exec .xform s = .next a) : a.state = .idle := by
  cases h.exec_xform.symm.trans ha
  exact h.idle

/-- What makes an engine ready lies outside the registers that these commands write. -/
theorem State.Ready.withEngine {s : State} (h : s.Ready) {x ps : Word} {ts hv ws : Bool} {op : OpCode} {hp : BitVec 8}
    {m : Memory} {ra : List SrcAnswer} {rb : List SnkAnswer} {es : List Event} :
    State.Ready
      { s with
        xlen := x, tsel := ts, hdrv := hv, wsize := ws, phase := .none, lastop := op, pos := ps, hpos := hp, hdr := m
        srcAnswers := ra, snkAnswers := rb, history := es } :=
  ⟨h.noHost, rfl, h.idle, h.noError, h.source, h.sink⟩

theorem State.Ready.exec_selTable {s : State} (h : s.Ready) : exec .selTable s = .next s.tableSelected :=
  exec_selTable_of_free h.free (by simp [h.idle])

theorem State.writeReg_xlen_of_free {s : State} (hp : s.phase = .none) (w : Word) :
    s.writeReg .xlen w = { s with xlen := w } := by
  obtain ⟨-, -, -, -, hxlen⟩ := State.writeReg_of_free hp w
  exact hxlen

theorem State.EncodeOperands.buildCheck {s : State} {v : Variant} {off : Word} (h : s.EncodeOperands v off) :
    s.buildCheck = none := by
  cases v with
  | image =>
    obtain ⟨b, hb⟩ := Option.ne_none_iff_exists'.1 (h.base rfl)
    simp only [State.buildCheck, h.kind, hb]
  | resource => simp only [State.buildCheck, h.kind]

section Encode

variable {s : State} {v : Variant} {off : Word} {p : List Byte} {rs : List SrcAnswer} {rk : List SnkAnswer}
  (h : s.EncodeReady v off p rs rk)
include h

theorem State.EncodeReady.exec_buildHdr : exec .buildHdr s.tableSelected = .next (s.headerBuilt v off) := by
  rw [exec_buildHdr_passes (s := s.tableSelected) h.ready.free h.ne_error h.operands.buildCheck, State.headerBuilt,
    ← h.operands.builtHeader]
  rfl

theorem State.EncodeReady.exec_emitHdr : exec .emitHdr (s.headerBuilt v off) = .next (s.emitStarted v off) :=
  exec_emitHdr_passes (s := s.headerBuilt v off) h.ready.free h.ne_error
    (by simp [State.emitHdrCheck, State.headerBuilt, State.tableSelected, h.ready.sink])

theorem State.EncodeReady.emitted :
    runFor 128 (s.emitStarted v off) = .next (s.headerEmitted v off (List.replicate p.length SnkAnswer.ok ++ rk)) :=
  headerOut_whole (s := s.emitStarted v off) h.ready.noHost rfl rfl h.sink_split

/-- With XLEN written the engine is ready for the XFORM of the payload. -/
theorem State.EncodeReady.ready_emitted (rb : List SnkAnswer) :
    State.Ready { s.headerEmitted v off rb with xlen := s.srclen } :=
  h.ready.withEngine

theorem State.EncodeReady.answers_emitted :
    State.Answers { s.headerEmitted v off (List.replicate p.length .ok ++ rk) with xlen := s.srclen }
      p p.length rs rk :=
  ⟨h.answers.source, rfl⟩

end Encode

theorem State.table_emitted (s : State) (v : Variant) (off : Word) (rb : List SnkAnswer) :
    State.table { s.headerEmitted v off rb with xlen := s.srclen } = s.cipherTable :=
  State.table_of_selected rfl rfl rfl

/-- Settles O57: each command's law in turn; the header and the pass are those of the RUN, under the same table. -/
theorem runEncodeAsPrimitives : Obligations.RunEncodeAsPrimitives := by
  intro s v off p rs rk h
  have idle := h.ready.idle
  obtain ⟨-, ends⟩ := h.run_whole
  have ready := h.ready_emitted (List.replicate p.length .ok ++ rk)
  obtain ⟨x, es, hx, hend, hsink, -, hes⟩ := xformWholePass _ p rs rk ready h.length h.answers_emitted
  have hsink : sinkBytes es = transform s.cipherTable p :=
    hsink.trans (congrArg (transform · p) (State.table_emitted s v off _))
  refine ⟨s.encodeStarted v off, _, s.tableSelected, s.headerBuilt v off, s.emitStarted v off,
    s.headerEmitted v off (List.replicate p.length .ok ++ rk), x, _, h.exec_run, ends, h.ready.exec_selTable,
    h.exec_buildHdr, h.exec_emitHdr, h.emitted, ?_, hend, ?_, rfl, rfl, rfl, rfl, ?_,
    headerOutEvents (buildHeader v s.srclen off) 0 128 ++ es, List.append_assoc _ _ _, ?_⟩
  · rw [State.writeReg_xlen_of_free rfl]
    exact hx
  · rw [sinkBytes_append, hsink, State.sinkBytes_runCompleted, State.table_encodeHeaderSent]
    rfl
  · simp only [List.forall_mem_cons, List.not_mem_nil, IsEmpty.forall_iff, implies_true, and_true]
    exact ⟨idle, idle, idle, idle, ready.idle_xform hx, idle⟩
  · rw [List.all_append, headerOutEvents_not_isRelease, hes]
    rfl

section Decode

variable {s : State} {c : List Byte} {n : Nat} {rs : List SrcAnswer} {rk : List SnkAnswer}
  (h : s.DecodeReady c n rs rk)
include h

theorem State.DecodeReady.exec_readHdr : exec .readHdr s.tableSelected = .next s.readStarted := by
  refine exec_readHdr_passes (s := s.tableSelected) h.ready.free h.ne_error ?_
  simp [State.readHdrCheck, State.tableSelected, h.ready.source, Config.hdrSize, h.srclen_eq]

theorem State.DecodeReady.read :
    runFor 128 s.readStarted = .next (s.readStarted.headerRead (c.take 128) ((c.drop 128).map .byte ++ rs)) :=
  headerIn_whole (s := s.readStarted) h.ready.noHost rfl rfl h.length_header h.source_split

/-- With XLEN written the engine is ready for the XFORM of the payload. -/
theorem State.DecodeReady.ready_read (bs : List Byte) (ra : List SrcAnswer) :
    State.Ready { s.readStarted.headerRead bs ra with xlen := s.srclen - 128#32 } :=
  h.ready.withEngine

theorem State.DecodeReady.answers_read :
    State.Answers
      { s.readStarted.headerRead (c.take 128) ((c.drop 128).map .byte ++ rs) with xlen := s.srclen - 128#32 }
      (c.drop 128) (c.drop 128).length rs rk :=
  ⟨rfl, by rw [h.length_payload]; exact h.answers.sink⟩

end Decode

theorem State.table_read (s : State) (bs : List Byte) (ra : List SrcAnswer) :
    State.table { s.readStarted.headerRead bs ra with xlen := s.srclen - 128#32 } = s.cipherTable :=
  State.table_of_selected rfl rfl rfl

/-- Settles O58: each command's law in turn; the header and the pass are those of the RUN, under the same table. -/
theorem runDecodeAsPrimitives : Obligations.RunDecodeAsPrimitives := by
  intro s c n rs rk h
  have idle := h.ready.idle
  obtain ⟨-, ends⟩ := h.run_whole
  have ready := h.ready_read (c.take 128) ((c.drop 128).map .byte ++ rs)
  obtain ⟨x, es, hx, hend, hsink, -, hes⟩ := xformWholePass _ (c.drop 128) rs rk ready
    (h.payloadLength.trans h.length_payload.symm) h.answers_read
  have hsink : sinkBytes es = transform s.cipherTable (c.drop 128) :=
    hsink.trans (congrArg (transform · (c.drop 128)) (State.table_read s _ _))
  rw [h.length_payload] at hend
  refine ⟨s.decodeStarted, _, s.tableSelected, s.readStarted,
    s.readStarted.headerRead (c.take 128) ((c.drop 128).map .byte ++ rs), x, _, h.exec_run, ends,
    h.ready.exec_selTable, h.exec_readHdr, h.read, ?_, hend, ?_, rfl, rfl, rfl, rfl, rfl, ?_,
    readEvents (c.take 128) ++ es, List.append_assoc _ _ _, ?_⟩
  · rw [State.writeReg_xlen_of_free rfl]
    exact hx
  · rw [sinkBytes_append, hsink, State.sinkBytes_runCompleted, State.table_headerRead_decodeStarted]
    rfl
  · simp only [List.forall_mem_cons, List.not_mem_nil, IsEmpty.forall_iff, implies_true, and_true]
    exact ⟨idle, idle, idle, ready.idle_xform hx, idle⟩
  · rw [List.all_append, readEvents_not_isRelease, hes]
    rfl

end Sys2Proof.Machine
end

section
/-! Progress (42_control.md R141, 70_reset_and_hazards.md R183): with an answer queued for each step left, every turn of
the engine brings its command nearer to its end, and so a `wait` for it ends too. -/

namespace Sys2Proof.Machine

open Sys2Proof

/-- The invariant, with an answer of each stream queued for every step that the running command has left. -/
structure State.Fed (s : State) : Prop where
  inv : s.Inv
  source : s.stepsLeft ≤ s.srcAnswers.length
  sink : s.stepsLeft ≤ s.snkAnswers.length

theorem State.stepsLeft_of_hdrIn {s : State} (hp : s.phase = .hdrIn) :
    s.stepsLeft = (128 - s.hpos.toNat) + if s.lastop = 0x1#4 then s.xlen.toNat + 1 else 0 := by
  rw [State.stepsLeft, hp]

theorem State.stepsLeft_of_hdrOut {s : State} (hp : s.phase = .hdrOut) :
    s.stepsLeft = (128 - s.hpos.toNat) + if s.lastop = 0x1#4 then s.xlen.toNat + 1 else 0 := by
  rw [State.stepsLeft, hp]

theorem State.stepsLeft_of_payload {s : State} (hp : s.phase = .payload) :
    s.stepsLeft = s.xlen.toNat - s.pos.toNat + 1 := by
  rw [State.stepsLeft, hp]

/-- A running command has a step left. -/
theorem State.Inv.stepsLeft_pos {s : State} (h : s.Inv) (hp : s.phase ≠ .none) : 0 < s.stepsLeft := by
  cases hs : s.phase with
  | none => exact absurd hs hp
  | hdrIn =>
    have hh := h.hposLt (.inl hs)
    rw [State.stepsLeft_of_hdrIn hs]; omega
  | hdrOut =>
    have hh := h.hposLt (.inr hs)
    rw [State.stepsLeft_of_hdrOut hs]; omega
  | payload => rw [State.stepsLeft_of_payload hs]; omega

theorem State.Inv.free_of_stepsLeft {s : State} (h : s.Inv) (h0 : s.stepsLeft = 0) : s.phase = .none := by
  by_contra hp
  exact (h.stepsLeft_pos hp).ne' h0

/-- A header byte read is a step less, also where it ends the phase (40_header_codec.md R98). -/
theorem State.stepsLeft_headerByteIn {s : State} (hp : s.phase = .hdrIn) (hh : s.hpos.toNat < 128) (b : Byte) :
    (s.headerByteIn b).stepsLeft < s.stepsLeft := by
  rw [State.stepsLeft_of_hdrIn hp]
  by_cases hlast : s.hpos.toNat = 127
  · rw [State.headerByteIn_last hlast]
    by_cases hl : s.lastop = 0x1#4
    · rw [State.stepsLeft_of_payload (by exact if_pos hl)]
      dsimp only
      rw [if_pos hl]
      omega
    · rw [State.stepsLeft_of_free (by exact if_neg hl)]
      omega
  · have hsucc := hpos_succ hh
    rw [headerByteIn_of_lt (by omega), State.stepsLeft_of_hdrIn (by exact hp)]
    dsimp only
    omega

/-- A header byte written is a step less, also where it ends the phase (40_header_codec.md R100). -/
theorem State.stepsLeft_headerByteOut {s : State} (hp : s.phase = .hdrOut) (hh : s.hpos.toNat < 128) :
    s.headerByteOut.stepsLeft < s.stepsLeft := by
  rw [State.stepsLeft_of_hdrOut hp]
  by_cases hlast : s.hpos.toNat = 127
  · by_cases hl : s.lastop = 0x1#4
    · rw [State.headerByteOut_last_run hlast hl, State.stepsLeft_of_payload rfl, if_pos hl]
      dsimp only
      omega
    · rw [State.headerByteOut_last_primitive hlast hl, State.stepsLeft_of_free rfl]
      omega
  · have hsucc := hpos_succ hh
    rw [headerByteOut_of_lt (by omega), State.stepsLeft_of_hdrOut (by exact hp)]
    dsimp only
    omega

section Fed

variable {s : State} (h : s.Fed)
include h

/-- The plan and the history of the host are no part of a command's progress. -/
theorem State.Fed.withHost (plan : List HostAct) (es : List Event) :
    State.Fed { s with host := plan, history := es } :=
  ⟨h.inv.withHostSide _ _ _ _ plan es, h.source, h.sink⟩

theorem State.Fed.source_cons (hp : s.phase ≠ .none) : ∃ r rest, s.srcAnswers = r :: rest :=
  List.exists_cons_of_length_pos ((h.inv.stepsLeft_pos hp).trans_le h.source)

theorem State.Fed.sink_cons (hp : s.phase ≠ .none) : ∃ r rest, s.snkAnswers = r :: rest :=
  List.exists_cons_of_length_pos ((h.inv.stepsLeft_pos hp).trans_le h.sink)

/-- With its answers at hand a running command moves on: its step is no hold. -/
theorem State.Fed.engineStep_advances (hp : s.phase ≠ .none) :
    ∃ t, engineStep s = .next t ∧ t.stepsLeft < s.stepsLeft := by
  have ends {u : State} (hu : u.phase = .none) : u.stepsLeft < s.stepsLeft := by
    rw [State.stepsLeft_of_free hu]
    exact h.inv.stepsLeft_pos hp
  obtain ⟨ra, rest, ha⟩ := h.source_cons hp
  obtain ⟨rb, rest', hb⟩ := h.sink_cons hp
  cases hs : s.phase with
  | none => exact absurd hs hp
  | hdrIn =>
    have hh := h.inv.hposLt (.inl hs)
    cases ra with
    | eof => exact ⟨_, engineStep_headerEof hs hh ha, ends rfl⟩
    | byte b => exact ⟨_, engineStep_headerIn hs hh ha, State.stepsLeft_headerByteIn (by exact hs) (by exact hh) b⟩
  | hdrOut =>
    have hh := h.inv.hposLt (.inr hs)
    cases rb with
    | fail => exact ⟨_, engineStep_headerFail hs hh hb, ends rfl⟩
    | ok => exact ⟨_, engineStep_headerOut hs hh hb, State.stepsLeft_headerByteOut (by exact hs) (by exact hh)⟩
  | payload =>
    rcases (h.inv.posLe hs).lt_or_eq with hx | hx
    case inr => exact ⟨_, engineStep_finish hs (BitVec.eq_of_toNat_eq hx), ends rfl⟩
    cases ra with
    | eof => exact ⟨_, engineStep_payloadEof hs hx ha, ends rfl⟩
    | byte b =>
      cases rb with
      | fail => exact ⟨_, engineStep_payloadFail hs hx ha hb, ends rfl⟩
      | ok =>
        have hsucc := pos_succ hx
        refine ⟨_, engineStep_payloadOk hs hx ha hb, ?_⟩
        rw [State.stepsLeft_of_payload hs, State.stepsLeft_of_payload (by exact hs)]
        dsimp only
        omega

/-- One turn of the engine: a step less where a command runs, and the answers left still suffice, since a step takes at
most one of each stream. -/
theorem State.Fed.turn : ∃ t, engineStep s = .next t ∧ t.Fed ∧ t.stepsLeft ≤ s.stepsLeft - 1 ∧ t.host = s.host := by
  by_cases hp : s.phase = .none
  · exact ⟨s, freeEngineHasNoStep s hp, h, by rw [State.stepsLeft_of_free hp], rfl⟩
  · obtain ⟨t, ht, hlt⟩ := h.engineStep_advances hp
    have m := engineStep_move ht
    obtain ⟨es, taken⟩ := m.takes
    have hsrc := h.source
    have hsnk := h.sink
    rw [taken.source, List.length_append] at hsrc
    rw [taken.sink, List.length_append] at hsnk
    have hsrc1 := taken.sourceOnce
    have hsnk1 := taken.sinkOnce
    exact ⟨t, ht, ⟨m.keeps_inv h.inv, by omega, by omega⟩, by omega, m.host_eq⟩

theorem State.Fed.step_turn (hn : s.nextIsEngine) :
    ∃ t, step s = .next t ∧ t.Fed ∧ t.stepsLeft ≤ s.stepsLeft - 1 ∧ t.host = s.host.tail := by
  rcases hn with hh | ⟨rest, hh⟩
  · rw [step_of_host_nil hh, hh]
    obtain ⟨t, ht, hfed, hle, hhost⟩ := h.turn
    exact ⟨t, ht, hfed, hle, hhost.trans hh⟩
  · rw [step_of_tick hh, hh]
    exact (h.withHost rest s.history).turn

end Fed

/-- n turns, whether the host plans them or plans nothing. -/
theorem State.Fed.turns {s : State} (h : s.Fed) (n : Nat) (hn : ∀ a ∈ s.host.take n, a = .tick) :
    ∃ t, runFor n s = .next t ∧ t.Fed ∧ t.stepsLeft ≤ s.stepsLeft - n ∧ t.host = s.host.drop n := by
  induction n generalizing s with
  | zero => exact ⟨s, rfl, h, Nat.le_refl _, rfl⟩
  | succ n ih =>
    have engine : s.nextIsEngine := by
      cases hh : s.host with
      | nil => exact .inl hh
      | cons a rest => exact .inr ⟨rest, by rw [hh, hn a (by simp [hh])]⟩
    obtain ⟨u, hu, hfed, hle, hhost⟩ := h.step_turn engine
    have rest : ∀ a ∈ u.host.take n, a = .tick := fun a ha => hn a (by
      rw [hhost] at ha
      exact List.mem_of_mem_tail (by rwa [List.tail_take_eq_take_tail]))
    obtain ⟨t, ht, hfed', hle', hhost'⟩ := ih hfed rest
    exact ⟨t, (runFor_succ hu n).trans ht, hfed', by omega, by rw [hhost', hhost, List.drop_tail]⟩

/-- A `wait` ends: each poll of a busy engine is followed by `gap + 1` turns, so at least one step fewer is left at the
next poll. -/
theorem State.Fed.wait_ends {s : State} (h : s.Fed) {n gap : Nat} {rest : List HostAct} (hn : s.stepsLeft ≤ n)
    (hh : s.host = .wait gap :: rest) :
    ∃ (k : Nat) (t : State), k ≤ n * (gap + 2) + 1 ∧ runFor k s = .next t ∧ t.phase = .none ∧ t.host = rest := by
  induction n generalizing s with
  | zero =>
    have hp := h.inv.free_of_stepsLeft (Nat.le_zero.1 hn)
    exact ⟨1, _, Nat.le_add_left 1 _, runFor_succ (step_wait_free hh hp) 0, hp, rfl⟩
  | succ n ih =>
    by_cases hp : s.phase = .none
    · exact ⟨1, _, Nat.le_add_left 1 _, runFor_succ (step_wait_free hh hp) 0, hp, rfl⟩
    · obtain ⟨u, hu, hfed, hle, hhost⟩ := (h.withHost (List.replicate (gap + 1) .tick ++ .wait gap :: rest)
        (s.history ++ [.access (BusTxn.read .status) (.data s.statusWord)])).turns (gap + 1) (by simp)
      have left : u.stepsLeft ≤ s.stepsLeft - (gap + 1) := hle
      obtain ⟨k, t, hk, ht, hfree, hrest⟩ := ih hfed (by omega) (by simpa using hhost)
      refine ⟨gap + 1 + k + 1, t, ?_, ?_, hfree, hrest⟩
      · rw [Nat.succ_mul]
        omega
      · rw [runFor_succ (step_wait_busy hh hp), runFor_add hu, ht]

/-- Settles O59: as many turns as there are steps left, by `State.Fed.turns`; the polls by `State.Fed.wait_ends`. -/
theorem commandsEndWithinBound : Obligations.CommandsEndWithinBound := by
  intro s hi hsrc hsnk
  have fed : s.Fed := ⟨hi, hsrc, hsnk⟩
  refine ⟨fun hh hp => ?_, fun gap rest hh => fed.wait_ends (Nat.le_refl _) hh⟩
  obtain ⟨t, ht, hfed, hle, -⟩ := fed.turns s.stepsLeft (by simp [hh])
  exact ⟨s.stepsLeft, t, hi.stepsLeft_pos hp, Nat.le_refl _, ht, hfed.inv.free_of_stepsLeft (by omega)⟩

end Sys2Proof.Machine
end

section
/-! The Error state (60_exceptions.md R155, R156): what an engine move and a command do there, and the only steps that
leave it. -/

namespace Sys2Proof.Machine

open Sys2Proof

/-- A free engine has no move but to hold (42_control.md R125). -/
theorem EngineMove.eq_of_free {s t : State} (m : EngineMove s t) (hp : s.phase = .none) : t = s := by
  cases m with
  | hold => rfl
  | headerEof h | headerIn h | headerFail h | headerOut h | payloadEof h | payloadFail h | payloadOk h | finish h =>
    simp [hp] at h

/-- In Error a command other than CLEAR is ignored or, as NOP, writes LASTOP alone (42_control.md R128, R129). -/
theorem exec_of_error {i : Instr} {s t : State} (h : exec i s = .next t) (he : s.state = .error)
    (hp : s.phase = .none) (hc : i ≠ .clear) : t = { s with lastop := t.lastop } := by
  by_cases hn : i = .nop
  · subst hn
    cases (exec_nop_of_free hp).symm.trans h
    rfl
  · cases (exec_ignored (State.accepts_of_error he hn hc)).symm.trans h
    rfl

/-- Settles O39: in Error the engine holds and the host's other steps leave STATE, ERR and PHASE alone; of the commands
CLEAR alone writes them, by `exec_of_error`, and the reset input gives them their reset values. -/
theorem errorLeftOnlyByClearOrReset : Obligations.ErrorLeftOnlyByClearOrReset := by
  intro s t he hp h
  rcases (step_move h).engine_or_command_or_reset_or_host with ⟨-, rest, m⟩ | ⟨i, rest, es, hi, hx⟩ | hreset | hf
  · rw [m.eq_of_free hp]
    exact .inl ⟨he, rfl, hp⟩
  · by_cases hc : i = .clear
    · subst hc
      cases hx.symm.trans (exec_clear_of_free hp)
      exact .inr ⟨.inl hi, rfl, rfl⟩
    · rw [exec_of_error hx he hp hc]
      exact .inl ⟨he, rfl, hp⟩
  · obtain ⟨rest, hh⟩ := hreset
    cases (step_of_host_cons hh).symm.trans h
    exact .inr ⟨.inr ⟨rest, hh⟩, rfl, rfl⟩
  · rw [hf]
    exact .inl ⟨he, rfl, hp⟩

end Sys2Proof.Machine
end

section
/-! The reset input and the streams (70_reset_and_hazards.md R170): its only mark in the history is no stream interaction. -/

namespace Sys2Proof.Machine

open Sys2Proof

/-- The mark of a reset is no SnkWrite, so it adds no sink byte. -/
theorem sinkBytes_append_resetTaken (es : List Event) : sinkBytes (es ++ [.resetTaken]) = sinkBytes es := by
  have hmark : sinkBytes [.resetTaken] = [] := rfl
  rw [sinkBytes_append, hmark, List.append_nil]

/-- Settles O2: the reset input copies the host's side and records its mark alone, which adds no sink byte. -/
theorem resetMakesNoStreamInteraction : Obligations.ResetMakesNoStreamInteraction := by
  intro s rest hh
  exact ⟨_, step_of_host_cons hh, rfl, sinkBytes_append_resetTaken s.history, rfl, rfl, rfl, rfl, rfl⟩

end Sys2Proof.Machine
end
